-- ==== Sys2Proof/Word.lean ====
section
/-! DEFINITION. The word types of the encoder: the 16-bit request word (rule R46) and the 32-bit
words `bits` and `clear_mask` (rule R22). Bit 0 is the least significant bit of every word (R8). -/

namespace Sys2Proof

/-- A request word `REQ[15:0]` (rules R46, R47). -/
abbrev ReqWord := BitVec 16

/-- A 32-bit word: `bits`, `clear_mask`, or a register of the addressed block (rules R7, R22). -/
abbrev Word32 := BitVec 32

end Sys2Proof
end

