-- ==== Sys2Proof/Config.lean ====
section
/-! DEFINITION. The constants of rule R7 and the free values of the model: what the spec leaves
without a value is an opaque constant here, so that no proof can learn one. -/

namespace Sys2Proof.Config

/-- `NPINS`: valid pins are 0 to 57 (R7, R18). -/
abbrev npins : Nat := 58
/-- `STRIDE`: bytes between consecutive registers (R7, R35). -/
abbrev stride : Nat := 4
/-- `FSEL_PINS_PER_WORD` (R7, R20). -/
abbrev fselPinsPerWord : Nat := 10
/-- `PUD_PINS_PER_WORD` (R7, R20). -/
abbrev pudPinsPerWord : Nat := 16
/-- `BANK_PINS_PER_WORD` (R7, R20). -/
abbrev bankPinsPerWord : Nat := 32
/-- `FSEL_FIELD_WIDTH`: bits of one function code (R7, R20). -/
abbrev fselFieldWidth : Nat := 3
/-- `PINW`: width of the `PIN` port, the spec's parameter at its default (R7, D2). -/
abbrev pinWidth : Nat := 8
/-- `BLOCK_SIZE`: bytes of the peripheral block (R7, R32); read by the environment layer only. -/
abbrev blockSize : Nat := 256
/-- `PERIPH_BASE`, the environment's parameter at its default (R7, R33, D19). -/
abbrev periphBase : Nat := 0xFE200000

/-! Free values: an output port with no meaning (R28, R101, U4) holds whatever these give for the
draw's number. -/

/-- `OFFSET` when `OFFSET_VALID = 0` (R28). -/
opaque undrivenOffset : Nat → BitVec 8
/-- `BITS` when `PACK_VALID = 0` (R28). -/
opaque undrivenBits : Nat → Word32
/-- `CLEAR_MASK` when `PACK_VALID = 0` (R28). -/
opaque undrivenClearMask : Nat → Word32
/-- `FAULT` while no request is presented (R101). -/
opaque idleFault : Nat → Bool
/-- `CAUSE` while no request is presented (R101). -/
opaque idleCause : Nat → BitVec 2
/-- `OFFSET_VALID` while no request is presented (R101). -/
opaque idleOffsetValid : Nat → Bool
/-- `PACK_VALID` while no request is presented (R101). -/
opaque idlePackValid : Nat → Bool

/-- What the requester reads from the register word at an offset, where no modelled write fixes it
(U10); the second argument numbers the draw. Environment layer only. -/
opaque undeterminedWord : Nat → Nat → Word32

end Sys2Proof.Config
end

