-- ==== Sys2Proof/Syntax.lean ====
section
/-! DEFINITION. The instructions of the encoder as terms: the closed enumerations of rules R19 and
R21 and one constructor per row of `spec/opcode_table.json`. A pin is a natural number, as R51 reads
it from the port (`pin = zext(PIN)`); that it fits the port is `Instr.WellFormed`. -/

namespace Sys2Proof

/-- The twelve register kinds (R19), "a closed enumeration". -/
inductive RegisterKind where
  | functionSelect | set | clear | level | eventDetectStatus | risingEdge | fallingEdge
  | highDetect | lowDetect | asyncRising | asyncFalling | pullUpDown
deriving DecidableEq, Repr

/-- The three addressing classes (R20). -/
inductive AddressClass where
  /-- ten pins per word, FunctionSelect only -/
  | f10
  /-- sixteen pins per word, PullUpDown only -/
  | p16
  /-- thirty-two pins per word, the ten other kinds -/
  | b32
deriving DecidableEq, Repr

/-- The eight pin functions (R21), "a closed enumeration of the 8 possible 3-bit function codes". -/
inductive PinFunction where
  | input | output | alt0 | alt1 | alt2 | alt3 | alt4 | alt5
deriving DecidableEq, Repr

/-- The thirteen operations (R56), one constructor per row of the opcode table. An ignored field
(R53) is no operand and is not held. -/
inductive Instr where
  /-- `OFFSET.FSEL pin` (R62) -/
  | offsetFsel (pin : Nat)
  /-- `OFFSET.SET pin` (R63) -/
  | offsetSet (pin : Nat)
  /-- `OFFSET.CLR pin` (R64) -/
  | offsetClr (pin : Nat)
  /-- `OFFSET.LEV pin` (R65) -/
  | offsetLev (pin : Nat)
  /-- `OFFSET.EDS pin` (R66) -/
  | offsetEds (pin : Nat)
  /-- `OFFSET.REN pin` (R67) -/
  | offsetRen (pin : Nat)
  /-- `OFFSET.FEN pin` (R68) -/
  | offsetFen (pin : Nat)
  /-- `OFFSET.HEN pin` (R69) -/
  | offsetHen (pin : Nat)
  /-- `OFFSET.LEN pin` (R70) -/
  | offsetLen (pin : Nat)
  /-- `OFFSET.AREN pin` (R71) -/
  | offsetAren (pin : Nat)
  /-- `OFFSET.AFEN pin` (R72) -/
  | offsetAfen (pin : Nat)
  /-- `OFFSET.PUD pin` (R73) -/
  | offsetPud (pin : Nat)
  /-- `PACK function, pin` (R76) -/
  | pack (function : PinFunction) (pin : Nat)
deriving DecidableEq, Repr

/-- The pin operand every operation has (R59, R74). -/
def Instr.pin : Instr → Nat
  | .offsetFsel p => p
  | .offsetSet p => p
  | .offsetClr p => p
  | .offsetLev p => p
  | .offsetEds p => p
  | .offsetRen p => p
  | .offsetFen p => p
  | .offsetHen p => p
  | .offsetLen p => p
  | .offsetAren p => p
  | .offsetAfen p => p
  | .offsetPud p => p
  | .pack _ p => p

/-- The register kind an `OFFSET` operation asks for (R49); `PACK` has none. -/
def Instr.kind? : Instr → Option RegisterKind
  | .offsetFsel _ => some .functionSelect
  | .offsetSet _ => some .set
  | .offsetClr _ => some .clear
  | .offsetLev _ => some .level
  | .offsetEds _ => some .eventDetectStatus
  | .offsetRen _ => some .risingEdge
  | .offsetFen _ => some .fallingEdge
  | .offsetHen _ => some .highDetect
  | .offsetLen _ => some .lowDetect
  | .offsetAren _ => some .asyncRising
  | .offsetAfen _ => some .asyncFalling
  | .offsetPud _ => some .pullUpDown
  | .pack _ _ => none

/-- The `OFFSET` operation of a kind: the source's `offset(kind, pin)` (R2, R48). -/
def Instr.offset : RegisterKind → Nat → Instr
  | .functionSelect => .offsetFsel
  | .set => .offsetSet
  | .clear => .offsetClr
  | .level => .offsetLev
  | .eventDetectStatus => .offsetEds
  | .risingEdge => .offsetRen
  | .fallingEdge => .offsetFen
  | .highDetect => .offsetHen
  | .lowDetect => .offsetLen
  | .asyncRising => .offsetAren
  | .asyncFalling => .offsetAfen
  | .pullUpDown => .offsetPud

end Sys2Proof
end

