-- ==== Sys2Proof/WellFormed.lean ====
section
/-! DEFINITION. The one check a term of `Instr` needs before it can be written as a request word:
the pin fits the `PIN` port (R26, R51). Kinds and functions are closed enumerations and need none. -/

namespace Sys2Proof

/-- The pin is representable on the `PINW`-bit port. Out-of-domain pins 58 to 255 ARE representable
(R51): they are well formed and fault when executed. -/
abbrev Instr.WellFormed (i : Instr) : Prop := i.pin < 2 ^ Config.pinWidth

end Sys2Proof
end

