-- ==== Sys2Proof/Decode.lean ====
section
/-! DEFINITION. The request word (rules R46 to R56): its four fields, the kind and function codes,
decoding (total on all 65536 words, rejecting by name) and, after it, the encoder. -/

namespace Sys2Proof

/-- The `KIND` code of a register kind (R19, R49). -/
def RegisterKind.code : RegisterKind → BitVec 4
  | .functionSelect => 0#4
  | .set => 1#4
  | .clear => 2#4
  | .level => 3#4
  | .eventDetectStatus => 4#4
  | .risingEdge => 5#4
  | .fallingEdge => 6#4
  | .highDetect => 7#4
  | .lowDetect => 8#4
  | .asyncRising => 9#4
  | .asyncFalling => 10#4
  | .pullUpDown => 11#4

/-- The kind a `KIND` code names; codes 12 to 15 are reserved and name none (R49, R54). -/
def RegisterKind.ofCode (c : BitVec 4) : Option RegisterKind :=
  match c.toNat with
  | 0 => some .functionSelect
  | 1 => some .set
  | 2 => some .clear
  | 3 => some .level
  | 4 => some .eventDetectStatus
  | 5 => some .risingEdge
  | 6 => some .fallingEdge
  | 7 => some .highDetect
  | 8 => some .lowDetect
  | 9 => some .asyncRising
  | 10 => some .asyncFalling
  | 11 => some .pullUpDown
  | _ => none

/-- `code(f)`: the 3-bit hardware code of a pin function (R21); not in the order of the names. -/
def PinFunction.code : PinFunction → BitVec 3
  | .input => 0b000#3
  | .output => 0b001#3
  | .alt5 => 0b010#3
  | .alt4 => 0b011#3
  | .alt0 => 0b100#3
  | .alt1 => 0b101#3
  | .alt2 => 0b110#3
  | .alt3 => 0b111#3

/-- The function a code names; every 3-bit value names exactly one (R21, R50), so the last arm is
code 7 alone. -/
def PinFunction.ofCode (c : BitVec 3) : PinFunction :=
  match c.toNat with
  | 0 => .input
  | 1 => .output
  | 2 => .alt5
  | 3 => .alt4
  | 4 => .alt0
  | 5 => .alt1
  | 6 => .alt2
  | _ => .alt3

/-- The four input ports (R26), which are the four fields of the request word (R47). -/
structure InPorts where
  op : BitVec 1
  kind : BitVec 4
  func : BitVec 3
  pin : BitVec 8
deriving DecidableEq, Repr

/-- `REQ = {OP, KIND, FUNC, PIN}`, that is `OP * 0x8000 + KIND * 0x0800 + FUNC * 0x0100 + PIN`
(R47). -/
def InPorts.toWord (p : InPorts) : ReqWord :=
  BitVec.ofNat 16
    (p.op.toNat * 0x8000 + p.kind.toNat * 0x0800 + p.func.toNat * 0x0100 + p.pin.toNat)

/-- The fields `REQ[15]`, `REQ[14:11]`, `REQ[10:8]`, `REQ[7:0]` (R47). -/
def InPorts.ofWord (w : ReqWord) : InPorts where
  op := w.extractLsb' 15 1
  kind := w.extractLsb' 11 4
  func := w.extractLsb' 8 3
  pin := w.extractLsb' 0 8

/-- Why a word decodes to no operation: `Illegal(kind)` of R52. -/
inductive DecodeReject where
  /-- `OP = 0` with a reserved `KIND` code, 12 to 15 (R54). -/
  | illegalKind (code : Nat)
deriving DecidableEq, Repr

/-- `decode(REQ)` of R52. The pin domain is not looked at: that is execution's first step. -/
def decode (w : ReqWord) : Except DecodeReject Instr :=
  let p := InPorts.ofWord w
  if p.op = 0#1 then
    match RegisterKind.ofCode p.kind with
    | none => .error (.illegalKind p.kind.toNat)
    | some k => .ok (Instr.offset k p.pin.toNat)
  else .ok (.pack (PinFunction.ofCode p.func) p.pin.toNat)

/-- The ports of an operation in canonical form: zero in the ignored field (R53, D20). -/
def Instr.ports : Instr → InPorts
  | .offsetFsel p => ⟨0#1, RegisterKind.functionSelect.code, 0#3, BitVec.ofNat 8 p⟩
  | .offsetSet p => ⟨0#1, RegisterKind.set.code, 0#3, BitVec.ofNat 8 p⟩
  | .offsetClr p => ⟨0#1, RegisterKind.clear.code, 0#3, BitVec.ofNat 8 p⟩
  | .offsetLev p => ⟨0#1, RegisterKind.level.code, 0#3, BitVec.ofNat 8 p⟩
  | .offsetEds p => ⟨0#1, RegisterKind.eventDetectStatus.code, 0#3, BitVec.ofNat 8 p⟩
  | .offsetRen p => ⟨0#1, RegisterKind.risingEdge.code, 0#3, BitVec.ofNat 8 p⟩
  | .offsetFen p => ⟨0#1, RegisterKind.fallingEdge.code, 0#3, BitVec.ofNat 8 p⟩
  | .offsetHen p => ⟨0#1, RegisterKind.highDetect.code, 0#3, BitVec.ofNat 8 p⟩
  | .offsetLen p => ⟨0#1, RegisterKind.lowDetect.code, 0#3, BitVec.ofNat 8 p⟩
  | .offsetAren p => ⟨0#1, RegisterKind.asyncRising.code, 0#3, BitVec.ofNat 8 p⟩
  | .offsetAfen p => ⟨0#1, RegisterKind.asyncFalling.code, 0#3, BitVec.ofNat 8 p⟩
  | .offsetPud p => ⟨0#1, RegisterKind.pullUpDown.code, 0#3, BitVec.ofNat 8 p⟩
  | .pack f p => ⟨1#1, 0#4, f.code, BitVec.ofNat 8 p⟩

/-- The canonical request word of an operation (R47, R53): of a well-formed one it holds every
operand; a pin that does not fit the port loses its high bits. -/
def encode (i : Instr) : ReqWord := i.ports.toWord

/-- A request word with its ignored field zeroed (R53): `FUNC` when `OP = 0`, `KIND` when `OP = 1`. -/
def canonical (w : ReqWord) : ReqWord :=
  if w.extractLsb' 15 1 = 0#1 then w &&& 0xF8FF#16 else w &&& 0x87FF#16

/-- One row of the opcode map (R56): a word `w` is this operation's when `w &&& mask = pattern`. -/
structure OpcodeRow where
  mnemonic : String
  pattern : ReqWord
  mask : ReqWord
deriving DecidableEq, Repr

/-- The row of an operation in the opcode map (R56). -/
def Instr.row : Instr → OpcodeRow
  | .offsetFsel _ => ⟨"OFFSET.FSEL", 0x0000#16, 0xF800#16⟩
  | .offsetSet _ => ⟨"OFFSET.SET", 0x0800#16, 0xF800#16⟩
  | .offsetClr _ => ⟨"OFFSET.CLR", 0x1000#16, 0xF800#16⟩
  | .offsetLev _ => ⟨"OFFSET.LEV", 0x1800#16, 0xF800#16⟩
  | .offsetEds _ => ⟨"OFFSET.EDS", 0x2000#16, 0xF800#16⟩
  | .offsetRen _ => ⟨"OFFSET.REN", 0x2800#16, 0xF800#16⟩
  | .offsetFen _ => ⟨"OFFSET.FEN", 0x3000#16, 0xF800#16⟩
  | .offsetHen _ => ⟨"OFFSET.HEN", 0x3800#16, 0xF800#16⟩
  | .offsetLen _ => ⟨"OFFSET.LEN", 0x4000#16, 0xF800#16⟩
  | .offsetAren _ => ⟨"OFFSET.AREN", 0x4800#16, 0xF800#16⟩
  | .offsetAfen _ => ⟨"OFFSET.AFEN", 0x5000#16, 0xF800#16⟩
  | .offsetPud _ => ⟨"OFFSET.PUD", 0x5800#16, 0xF800#16⟩
  | .pack _ _ => ⟨"PACK", 0x8000#16, 0x8000#16⟩

/-- The thirteen rows of the opcode map (R56), in its order. -/
def opcodeRows : List OpcodeRow :=
  [(Instr.offsetFsel 0).row, (Instr.offsetSet 0).row, (Instr.offsetClr 0).row,
   (Instr.offsetLev 0).row, (Instr.offsetEds 0).row, (Instr.offsetRen 0).row,
   (Instr.offsetFen 0).row, (Instr.offsetHen 0).row, (Instr.offsetLen 0).row,
   (Instr.offsetAren 0).row, (Instr.offsetAfen 0).row, (Instr.offsetPud 0).row,
   (Instr.pack .input 0).row]

/-- The fourteenth row of the map: the illegal words (R54, R56). -/
def illegalRow : OpcodeRow := ⟨"(illegal)", 0x6000#16, 0xE000#16⟩

/-- The word an opcode-table row stands for: its `nbits` low bits, every bit above them zero. One
request is one 16-bit word on the port, so no byte order enters (R46, R39). -/
def tableWord (nbits w : Nat) : ReqWord := BitVec.ofNat 16 (w % 2 ^ nbits)

/-- The operation the decoder reads from a table word, none where it rejects. -/
def decodeTableWord (nbits w : Nat) : Option Instr := (decode (tableWord nbits w)).toOption

end Sys2Proof
end

