-- ==== Sys2Proof/Machine/State.lean ====
section
/-! DEFINITION. What a step reads and leaves. The encoder itself has no state (R15 to R17, R29): the
fields below are the run of R14, that is the requests still to be presented, the request on the input
ports with the result on the output ports, and the results so far (log entries 1 and 2). -/

namespace Sys2Proof.Machine

/-- The causes of a fault (R84). -/
inductive Cause where
  /-- `PIN_DOMAIN`, cause code 1 (R85). -/
  | pinDomain
  /-- `ILLEGAL_KIND`, cause code 2 (R86). -/
  | illegalKind
deriving DecidableEq, Repr

/-- The result of a request (R11). A fault carries its cause and no value (R11, R87). -/
inductive Result where
  /-- a byte offset, a natural number (R22) -/
  | offset (o : Nat)
  /-- `bits` and `clear_mask` (R22) -/
  | packed (bits clearMask : Word32)
  | fault (cause : Cause)
deriving DecidableEq, Repr

/-- A request as presented: the word on the input ports, and whose it is. The number only tells runs
apart; the encoder never reads it (R97, log entry 5). -/
structure Request where
  requester : Nat
  word : ReqWord
deriving DecidableEq, Repr

/-- One answered request of a run (R14). -/
structure Answer where
  requester : Nat
  word : ReqWord
  result : Result
deriving DecidableEq, Repr

/-- The run the encoder serves (R14). No field is a register of the hardware. -/
structure State where
  /-- requests not yet presented, in the order they will be (R14, R16) -/
  queue : List Request
  /-- the request on the input ports (R26); none while no request is presented (R101); once answered it
  stays until the next one (the model's choice, log entry 19) -/
  request : Option Request
  /-- the result the output ports carry (R11, R27); none before the first answer; it stays with its request
  (log entry 19) -/
  response : Option Result
  /-- the answered requests of all runs, oldest first (R14) -/
  log : List Answer
  /-- how many answers were given: numbers the free values of the output ports (R28, log entry 9) -/
  draws : Nat
deriving DecidableEq, Repr

/-- Right after reset: no request presented, none answered, none waiting (R99, R101, log entry 2). -/
def State.reset : State where
  queue := []
  request := none
  response := none
  log := []
  draws := 0

/-- Why a step stops. The encoder's own faults (R84) are no stops: they are results (`Cause`). -/
inductive Fault where
  /-- Raised by `step` when no request is waiting: a step takes one request (R14), so there is none.
  Safe: the machine stops where the hardware waits for a request (log entry 4). -/
  | noRequest
  /-- Raised by `step` when requests wait, but each is of a requester whose run a fault has ended: a
  faulted run has no later step (R14, R90). Safe: nothing is claimed of such a run (log entry 3). -/
  | runEnded
deriving DecidableEq, Repr

/-- Why an instruction has no meaning. -/
inductive Refusal where
  /-- Raised by an arm of `exec` whose instruction has no meaning yet; no arm does. Safe. -/
  | notModelled (mnemonic : String)
deriving DecidableEq, Repr

end Sys2Proof.Machine
end

