-- ==== Sys2Proof/Machine/Flags.lean ====
section
/-! DEFINITION. The encoder has no flags (R17). What status a result has is the ports' FAULT, CAUSE,
OFFSET_VALID and PACK_VALID (R27), computed here together with the data outputs. -/

namespace Sys2Proof.Machine

/-- The cause code of R84 on the 2-bit `CAUSE` port (R27). -/
def Cause.code : Cause → BitVec 2
  | .pinDomain => 1#2
  | .illegalKind => 2#2

/-- Whether a result is a fault, the only status a request produces (R17). -/
def Result.isFault : Result → Bool
  | .offset _ => false
  | .packed _ _ => false
  | .fault _ => true

/-- The output ports (R27). -/
structure OutPorts where
  fault : Bool
  cause : BitVec 2
  offsetValid : Bool
  offset : BitVec 8
  packValid : Bool
  bits : Word32
  clearMask : Word32
deriving DecidableEq, Repr

/-- The output ports carrying a result (R27, R89): a data output whose valid bit is 0 is a free
value, the one of draw `n` (R28). -/
def Result.drive (n : Nat) : Result → OutPorts
  | .offset o =>
    { fault := false, cause := 0#2, offsetValid := true, offset := BitVec.ofNat 8 o,
      packValid := false, bits := Config.undrivenBits n,
      clearMask := Config.undrivenClearMask n }
  | .packed b m =>
    { fault := false, cause := 0#2, offsetValid := false, offset := Config.undrivenOffset n,
      packValid := true, bits := b, clearMask := m }
  | .fault c =>
    { fault := true, cause := c.code, offsetValid := false, offset := Config.undrivenOffset n,
      packValid := false, bits := Config.undrivenBits n,
      clearMask := Config.undrivenClearMask n }

/-- The output ports while no request is presented: without meaning, all of them (R101). -/
def OutPorts.idle (n : Nat) : OutPorts where
  fault := Config.idleFault n
  cause := Config.idleCause n
  offsetValid := Config.idleOffsetValid n
  offset := Config.undrivenOffset n
  packValid := Config.idlePackValid n
  bits := Config.undrivenBits n
  clearMask := Config.undrivenClearMask n

/-- The output ports of a state (R27, R101). After the first answer a request is always presented: the
model's choice (log entry 19). -/
def State.outputs (s : State) : OutPorts :=
  match s.request, s.response with
  | some _, some r => r.drive s.draws
  | _, _ => OutPorts.idle s.draws

/-- The input ports of a state: the fields of the presented word (R26, R47). -/
def State.inputs (s : State) : Option InPorts := s.request.map fun r => InPorts.ofWord r.word

end Sys2Proof.Machine
end

