-- ==== Sys2Proof/Machine/Operands.lean ====
section
/-! DEFINITION. The operand computations of the two families: the constant tables `base(k)` and
`class(k)` (R19, R20), the word index and offset formulas (R60), the field index, shift, bits and
mask (R75, R76). All take a valid pin; the pin check is `withPin` in Ops. -/

namespace Sys2Proof.Machine

/-- `base(k)`: the base byte offset of a kind (R19). -/
def base : RegisterKind → Nat
  | .functionSelect => 0x00
  | .set => 0x1C
  | .clear => 0x28
  | .level => 0x34
  | .eventDetectStatus => 0x40
  | .risingEdge => 0x4C
  | .fallingEdge => 0x58
  | .highDetect => 0x64
  | .lowDetect => 0x70
  | .asyncRising => 0x7C
  | .asyncFalling => 0x88
  | .pullUpDown => 0xE4

/-- `class(k)`: the addressing class of a kind (R20). -/
def classOf : RegisterKind → AddressClass
  | .functionSelect => .f10
  | .pullUpDown => .p16
  | .set | .clear | .level | .eventDetectStatus | .risingEdge | .fallingEdge | .highDetect
  | .lowDetect | .asyncRising | .asyncFalling => .b32

/-- `word_class(pin)`: which word of its family holds the pin (R60). -/
def wordIndex : AddressClass → Nat → Nat
  | .f10, pin => pin / Config.fselPinsPerWord
  | .p16, pin => pin / Config.pudPinsPerWord
  | .b32, pin => if pin > 31 then 1 else 0

/-- The offset formula of class F10 (R62). -/
def offsetF10 (b pin : Nat) : Nat := b + pin / Config.fselPinsPerWord * Config.stride

/-- The offset formula of class P16 (R73). -/
def offsetP16 (b pin : Nat) : Nat := b + pin / Config.pudPinsPerWord * Config.stride

/-- The offset formula of class B32, the comparison form the spec keeps (R60, R63 to R72). -/
def offsetB32 (b pin : Nat) : Nat := b + if pin > 31 then Config.stride else 0

/-- `j(pin)`: the field index of a pin in its function-select word (R75). -/
def fieldIndex (pin : Nat) : Nat := pin % Config.fselPinsPerWord

/-- `shift(pin)`: the position of the pin's field (R75). -/
def shift (pin : Nat) : Nat := fieldIndex pin * Config.fselFieldWidth

/-- The field mask `zext_32(0b111) << s` (R76). -/
def fieldMask (pin : Nat) : Word32 := 0b111#32 <<< shift pin

/-- `bits = zext_32(c) << s` (R76). -/
def packBits (c : BitVec 3) (pin : Nat) : Word32 := c.setWidth 32 <<< shift pin

/-- `clear_mask = ~(zext_32(0b111) << s)`: the complement is taken after the shift (R76). -/
def clearMask (pin : Nat) : Word32 := ~~~(fieldMask pin)

end Sys2Proof.Machine
end

