-- ==== Sys2Proof/Machine/Ops.lean ====
section
/-! DEFINITION. The shared operations. Of the encoder: answering with a result, taking a fault, the
pin check. Around it, the requester's run: presenting the next request and delivering the answer.
There is no memory operation (R31) and no return from a fault (R90). -/

namespace Sys2Proof.Machine

/-- Answer the presented request: the result stands on the output ports, and a fresh draw numbers
the outputs without meaning (R11, R27, R28). Nothing else changes (R15). -/
def State.answer (s : State) (r : Result) : State :=
  { s with response := some r, draws := s.draws + 1 }

/-- Fault entry (R89): the whole effect is the result `Fault(cause)`. Nothing is saved and nothing is
transferred to. -/
def takeFault (c : Cause) (s : State) : Host.Outcome State Fault Refusal := .next (s.answer (.fault c))

/-- Return `Offset(o)` (R10). -/
def giveOffset (o : Nat) (s : State) : Host.Outcome State Fault Refusal := .next (s.answer (.offset o))

/-- Return `Packed(b, m)` (R10). -/
def givePacked (b m : Word32) (s : State) : Host.Outcome State Fault Refusal :=
  .next (s.answer (.packed b m))

/-- The first step of every operation: `if pin >= 58: raise PinDomainFault(pin)`, before anything is
computed (R59, R74, R85). -/
def withPin (pin : Nat) (perform : State → Host.Outcome State Fault Refusal) (s : State) :
    Host.Outcome State Fault Refusal :=
  if pin ≥ Config.npins then takeFault .pinDomain s else perform s

/-- Executing an illegal word: `raise IllegalKindFault(kind)` (R52, R86). -/
def execIllegal (s : State) : Host.Outcome State Fault Refusal := takeFault .illegalKind s

/-- Whether a requester's run has ended: one of its results is a fault (R14, R90). -/
def State.ended (s : State) (q : Nat) : Bool :=
  s.log.any fun a => a.requester == q && a.result.isFault

/-- The requester presents requests: its words join the queue in program order (R14, R26). -/
def State.present (s : State) (q : Nat) (words : List ReqWord) : State :=
  { s with queue := s.queue ++ words.map fun w => ⟨q, w⟩ }

/-- The waiting requests that may be presented: those of requesters whose run has not ended. The
requests that follow a fault in its requester's program "are never presented" (R90), and no other
requester's are touched (R97). -/
def State.live (s : State) : List Request := s.queue.filter fun r => !s.ended r.requester

/-- The next request comes to the input ports (R26); `rest` waits. -/
def State.accept (s : State) (r : Request) (rest : List Request) : State :=
  { s with queue := rest, request := some r }

/-- The requester of the presented request receives the result on the output ports (R14). DESIGN CHOICE
(log entry 19): the spec does not say how long a request stays presented after its answer; here request
and result stay on the ports until the next request is presented. -/
def State.deliver (s : State) : State :=
  match s.request, s.response with
  | some r, some x => { s with log := s.log ++ [⟨r.requester, r.word, x⟩] }
  | _, _ => s

/-- Deliver the answer of an execution that gave one. -/
def deliverOutcome : Host.Outcome State Fault Refusal → Host.Outcome State Fault Refusal
  | .next s => .next s.deliver
  | .fault f => .fault f
  | .refused r => .refused r

/-- A requester number no request and no answer of the state carries. -/
def State.freshRequester (s : State) : Nat :=
  (s.queue.map Request.requester ++ s.log.map Answer.requester).foldr (fun q n => max (q + 1) n) 0

end Sys2Proof.Machine
end

