-- ==== Sys2Proof/Machine/Offset.lean ====
section
/-! DEFINITION. The meanings of the twelve `OFFSET` operations, one per rule R62 to R73: the pin
check, then the offset of the word that serves the pin. -/

namespace Sys2Proof.Machine

/-- `OFFSET.FSEL pin` (R62): `0x00 + (pin / 10) * 4`. -/
def execOffsetFsel (pin : Nat) (s : State) : Host.Outcome State Fault Refusal :=
  withPin pin (giveOffset (offsetF10 0x00 pin)) s

/-- `OFFSET.SET pin` (R63): `0x1C + (4 if pin > 31 else 0)`. -/
def execOffsetSet (pin : Nat) (s : State) : Host.Outcome State Fault Refusal :=
  withPin pin (giveOffset (offsetB32 0x1C pin)) s

/-- `OFFSET.CLR pin` (R64): `0x28 + (4 if pin > 31 else 0)`. -/
def execOffsetClr (pin : Nat) (s : State) : Host.Outcome State Fault Refusal :=
  withPin pin (giveOffset (offsetB32 0x28 pin)) s

/-- `OFFSET.LEV pin` (R65): `0x34 + (4 if pin > 31 else 0)`. -/
def execOffsetLev (pin : Nat) (s : State) : Host.Outcome State Fault Refusal :=
  withPin pin (giveOffset (offsetB32 0x34 pin)) s

/-- `OFFSET.EDS pin` (R66): `0x40 + (4 if pin > 31 else 0)`. -/
def execOffsetEds (pin : Nat) (s : State) : Host.Outcome State Fault Refusal :=
  withPin pin (giveOffset (offsetB32 0x40 pin)) s

/-- `OFFSET.REN pin` (R67): `0x4C + (4 if pin > 31 else 0)`. -/
def execOffsetRen (pin : Nat) (s : State) : Host.Outcome State Fault Refusal :=
  withPin pin (giveOffset (offsetB32 0x4C pin)) s

/-- `OFFSET.FEN pin` (R68): `0x58 + (4 if pin > 31 else 0)`. -/
def execOffsetFen (pin : Nat) (s : State) : Host.Outcome State Fault Refusal :=
  withPin pin (giveOffset (offsetB32 0x58 pin)) s

/-- `OFFSET.HEN pin` (R69): `0x64 + (4 if pin > 31 else 0)`. -/
def execOffsetHen (pin : Nat) (s : State) : Host.Outcome State Fault Refusal :=
  withPin pin (giveOffset (offsetB32 0x64 pin)) s

/-- `OFFSET.LEN pin` (R70): `0x70 + (4 if pin > 31 else 0)`. -/
def execOffsetLen (pin : Nat) (s : State) : Host.Outcome State Fault Refusal :=
  withPin pin (giveOffset (offsetB32 0x70 pin)) s

/-- `OFFSET.AREN pin` (R71): `0x7C + (4 if pin > 31 else 0)`. -/
def execOffsetAren (pin : Nat) (s : State) : Host.Outcome State Fault Refusal :=
  withPin pin (giveOffset (offsetB32 0x7C pin)) s

/-- `OFFSET.AFEN pin` (R72): `0x88 + (4 if pin > 31 else 0)`. -/
def execOffsetAfen (pin : Nat) (s : State) : Host.Outcome State Fault Refusal :=
  withPin pin (giveOffset (offsetB32 0x88 pin)) s

/-- `OFFSET.PUD pin` (R73): `0xE4 + (pin / 16) * 4`. -/
def execOffsetPud (pin : Nat) (s : State) : Host.Outcome State Fault Refusal :=
  withPin pin (giveOffset (offsetP16 0xE4 pin)) s

end Sys2Proof.Machine
end

