-- ==== Sys2Proof/Machine/Pack.lean ====
section
/-! DEFINITION. The meaning of `PACK` (R74 to R76). -/

namespace Sys2Proof.Machine

/-- `PACK function, pin` (R76): the pin check, then `bits` and `clear_mask`. -/
def execPack (function : PinFunction) (pin : Nat) (s : State) : Host.Outcome State Fault Refusal :=
  withPin pin (givePacked (packBits function.code pin) (clearMask pin)) s

end Sys2Proof.Machine
end

