-- ==== Sys2Proof/Machine/Dispatch.lean ====
section
/-! DEFINITION. `exec`: each instruction's meaning, one arm per constructor. -/

namespace Sys2Proof.Machine

def exec (i : Instr) (s : State) : Host.Outcome State Fault Refusal :=
  match i with
  | .offsetFsel pin => Sys2Proof.Machine.execOffsetFsel pin s
  | .offsetSet pin => Sys2Proof.Machine.execOffsetSet pin s
  | .offsetClr pin => Sys2Proof.Machine.execOffsetClr pin s
  | .offsetLev pin => Sys2Proof.Machine.execOffsetLev pin s
  | .offsetEds pin => Sys2Proof.Machine.execOffsetEds pin s
  | .offsetRen pin => Sys2Proof.Machine.execOffsetRen pin s
  | .offsetFen pin => Sys2Proof.Machine.execOffsetFen pin s
  | .offsetHen pin => Sys2Proof.Machine.execOffsetHen pin s
  | .offsetLen pin => Sys2Proof.Machine.execOffsetLen pin s
  | .offsetAren pin => Sys2Proof.Machine.execOffsetAren pin s
  | .offsetAfen pin => Sys2Proof.Machine.execOffsetAfen pin s
  | .offsetPud pin => Sys2Proof.Machine.execOffsetPud pin s
  | .pack function pin => Sys2Proof.Machine.execPack function pin s

end Sys2Proof.Machine
end

