-- ==== Sys2Proof/Machine/Request.lean ====
section
/-! DEFINITION. What a step runs: the word on the input ports, decoded and executed. -/

namespace Sys2Proof.Machine

/-- Execute a request word: the operation it decodes to (R52); an illegal word raises `ILLEGAL_KIND`
whatever its pin, since decoding comes before execution (R86, R88). -/
def execWord (w : ReqWord) (s : State) : Host.Outcome State Fault Refusal :=
  match decode w with
  | .ok i => exec i s
  | .error _ => execIllegal s

/-- Present the request, answer it, deliver the result to its requester (R14). -/
def serve (r : Request) (rest : List Request) (s : State) : Host.Outcome State Fault Refusal :=
  deliverOutcome (execWord r.word (s.accept r rest))

/-- Why there is no request to present. -/
def idleReason (s : State) : Fault := if s.queue = [] then .noRequest else .runEnded

/-- The word placed as the very next request, the first of a requester that has presented none. -/
def placeNext (s : State) (w : ReqWord) : State :=
  { s with queue := ⟨s.freshRequester, w⟩ :: s.queue }

end Sys2Proof.Machine
end

