-- ==== Sys2Proof/Machine/Step.lean ====
section
/-! DEFINITION. One step: one request is presented, answered, and its result delivered (R14). -/

namespace Sys2Proof.Machine

/-- "A step takes one request and yields one Result" (R14): the first request that may be presented.
With none there is no step. -/
def step (s : State) : Host.Outcome State Fault Refusal :=
  match s.live with
  | [] => .fault (idleReason s)
  | r :: rest => serve r rest s

/-- The `nbits` low bits of `w`, the bits above them zero, placed as the very next request
(log entry 7). -/
def State.withFetchWord (s : State) (nbits w : Nat) : State := placeNext s (tableWord nbits w)

end Sys2Proof.Machine
end

