-- ==== Sys2Proof/Machine/Contract.lean ====
section
/-! DEFINITION. The source's two contracts (R2, R57) as pure functions, written apart from the
meanings: from the tables and the word index (R19, R20, R60), from the arithmetic reading of the words
(R9, R47, R76), and for any integer pin (R18). Claims compare the machine with them. Also the address
map of R36, as the spec lists it. -/

namespace Sys2Proof.Machine

/-- `offset(kind, pin)` for an integer pin: valid exactly when `0 <= pin` and `pin < 58` (R18, R84);
then `base(K) + 4 * word_class(K)(pin)` (R60). -/
def Contract.offset (k : RegisterKind) (pin : Int) : Result :=
  if 0 ≤ pin ∧ pin < 58 then .offset (base k + 4 * wordIndex (classOf k) pin.toNat)
  else .fault .pinDomain

/-- `pack(function, pin)` for an integer pin: `bits` is `code * 2^s` and `clear_mask` is
`0xFFFFFFFF - 7 * 2^s` (R9, R76), `s` three times the last decimal digit of the pin. -/
def Contract.pack (f : PinFunction) (pin : Int) : Result :=
  if 0 ≤ pin ∧ pin < 58 then
    .packed (BitVec.ofNat 32 (f.code.toNat * 2 ^ (3 * (pin.toNat % 10))))
      (BitVec.ofNat 32 (0xFFFFFFFF - 7 * 2 ^ (3 * (pin.toNat % 10))))
  else .fault .pinDomain

/-- The contract an operation stands for (R2). -/
def Contract.answer (i : Instr) : Result :=
  match i with
  | .offsetFsel pin => Contract.offset .functionSelect pin
  | .offsetSet pin => Contract.offset .set pin
  | .offsetClr pin => Contract.offset .clear pin
  | .offsetLev pin => Contract.offset .level pin
  | .offsetEds pin => Contract.offset .eventDetectStatus pin
  | .offsetRen pin => Contract.offset .risingEdge pin
  | .offsetFen pin => Contract.offset .fallingEdge pin
  | .offsetHen pin => Contract.offset .highDetect pin
  | .offsetLen pin => Contract.offset .lowDetect pin
  | .offsetAren pin => Contract.offset .asyncRising pin
  | .offsetAfen pin => Contract.offset .asyncFalling pin
  | .offsetPud pin => Contract.offset .pullUpDown pin
  | .pack f pin => Contract.pack f pin

/-- The twelve kinds in the order of their codes (R49). -/
def kindsInOrder : List RegisterKind :=
  [.functionSelect, .set, .clear, .level, .eventDetectStatus, .risingEdge, .fallingEdge,
   .highDetect, .lowDetect, .asyncRising, .asyncFalling, .pullUpDown]

/-- The eight functions in the order of their codes (R21, R50). -/
def functionsInOrder : List PinFunction :=
  [.input, .output, .alt5, .alt4, .alt0, .alt1, .alt2, .alt3]

/-- The answer to a request word, its fields read by the arithmetic of R47
(`REQ = OP * 0x8000 + KIND * 0x0800 + FUNC * 0x0100 + PIN`), in the order of R52 and R88. -/
def Contract.answerWord (w : ReqWord) : Result :=
  let n := w.toNat
  if n / 0x8000 = 0 then
    match kindsInOrder[n / 0x0800 % 16]? with
    | none => .fault .illegalKind
    | some k => Contract.offset k (n % 0x0100 : Nat)
  else
    match functionsInOrder[n / 0x0100 % 8]? with
    | none => .fault .illegalKind
    | some f => Contract.pack f (n % 0x0100 : Nat)

/-- The kinds with their `KIND` codes and bases, as R49 tabulates them. -/
def kindRows : List (RegisterKind × Nat × Nat) :=
  [(.functionSelect, 0, 0x00), (.set, 1, 0x1C), (.clear, 2, 0x28), (.level, 3, 0x34),
   (.eventDetectStatus, 4, 0x40), (.risingEdge, 5, 0x4C), (.fallingEdge, 6, 0x58),
   (.highDetect, 7, 0x64), (.lowDetect, 8, 0x70), (.asyncRising, 9, 0x7C),
   (.asyncFalling, 10, 0x88), (.pullUpDown, 11, 0xE4)]

/-- The ten operations of class B32 with their bases and patterns, one a rule, R63 to R72. -/
def bankRows : List ((Nat → Instr) × Nat × ReqWord) :=
  [(.offsetSet, 0x1C, 0x0800#16), (.offsetClr, 0x28, 0x1000#16), (.offsetLev, 0x34, 0x1800#16),
   (.offsetEds, 0x40, 0x2000#16), (.offsetRen, 0x4C, 0x2800#16), (.offsetFen, 0x58, 0x3000#16),
   (.offsetHen, 0x64, 0x3800#16), (.offsetLen, 0x70, 0x4000#16), (.offsetAren, 0x7C, 0x4800#16),
   (.offsetAfen, 0x88, 0x5000#16)]

/-- One row of the address map (R36): a word of the block and the pins it serves. -/
structure MapRow where
  offset : Nat
  kind : RegisterKind
  word : Nat
  firstPin : Nat
  lastPin : Nat
deriving DecidableEq, Repr

/-- The six function-select words (R36). -/
def addressMapFsel : List MapRow :=
  [⟨0x00, .functionSelect, 0, 0, 9⟩, ⟨0x04, .functionSelect, 1, 10, 19⟩,
   ⟨0x08, .functionSelect, 2, 20, 29⟩, ⟨0x0C, .functionSelect, 3, 30, 39⟩,
   ⟨0x10, .functionSelect, 4, 40, 49⟩, ⟨0x14, .functionSelect, 5, 50, 57⟩]

/-- The twenty words of the ten one-bit-per-pin kinds (R36). -/
def addressMapBanks : List MapRow :=
  [⟨0x1C, .set, 0, 0, 31⟩, ⟨0x20, .set, 1, 32, 57⟩,
   ⟨0x28, .clear, 0, 0, 31⟩, ⟨0x2C, .clear, 1, 32, 57⟩,
   ⟨0x34, .level, 0, 0, 31⟩, ⟨0x38, .level, 1, 32, 57⟩,
   ⟨0x40, .eventDetectStatus, 0, 0, 31⟩, ⟨0x44, .eventDetectStatus, 1, 32, 57⟩,
   ⟨0x4C, .risingEdge, 0, 0, 31⟩, ⟨0x50, .risingEdge, 1, 32, 57⟩,
   ⟨0x58, .fallingEdge, 0, 0, 31⟩, ⟨0x5C, .fallingEdge, 1, 32, 57⟩,
   ⟨0x64, .highDetect, 0, 0, 31⟩, ⟨0x68, .highDetect, 1, 32, 57⟩,
   ⟨0x70, .lowDetect, 0, 0, 31⟩, ⟨0x74, .lowDetect, 1, 32, 57⟩,
   ⟨0x7C, .asyncRising, 0, 0, 31⟩, ⟨0x80, .asyncRising, 1, 32, 57⟩,
   ⟨0x88, .asyncFalling, 0, 0, 31⟩, ⟨0x8C, .asyncFalling, 1, 32, 57⟩]

/-- The four pull-up/pull-down words (R36). -/
def addressMapPud : List MapRow :=
  [⟨0xE4, .pullUpDown, 0, 0, 15⟩, ⟨0xE8, .pullUpDown, 1, 16, 31⟩,
   ⟨0xEC, .pullUpDown, 2, 32, 47⟩, ⟨0xF0, .pullUpDown, 3, 48, 57⟩]

/-- The thirty words the encoder can return the offset of (R36). -/
def addressMap : List MapRow := addressMapFsel ++ addressMapBanks ++ addressMapPud

end Sys2Proof.Machine
end

