-- ==== Sys2Proof/Machine/Assembler.lean ====
section
/-! DEFINITION. The two spellings of a request (R57) and the pseudo forms and aliases (R58): their
terms, the operation each expands to, their text, and reading a line of text. How blanks separate the
words of a line, and what a line without words is, are the model's choices (log entry 13). -/

namespace Sys2Proof.Machine

/-- One spelled request: the assembly forms of R57, the pseudo forms and aliases of R58, and the
source's function calls. -/
inductive AsmLine where
  /-- `OFFSET.<SUFFIX> <pin>` -/
  | offset (kind : RegisterKind) (pin : Nat)
  /-- `PACK <Function>, <pin>` -/
  | pack (function : PinFunction) (pin : Nat)
  /-- `CLRMASK <pin>` -/
  | clrmask (pin : Nat)
  /-- `OFFSET.GPSET <pin>` -/
  | offsetGpset (pin : Nat)
  /-- `OFFSET.GPPUPPDNCNTRL <pin>` -/
  | offsetGppuppdncntrl (pin : Nat)
  /-- `offset(<Kind>, <pin>)` -/
  | callOffset (kind : RegisterKind) (pin : Nat)
  /-- `pack(<Function>, <pin>)` -/
  | callPack (function : PinFunction) (pin : Nat)
  /-- `clear_mask(<pin>)` -/
  | callClearMask (pin : Nat)
deriving DecidableEq, Repr

/-- What a spelled request expands to (R57, R58). `CLRMASK` fixes the function to Input; only the mask
of its result is used (R77). -/
def AsmLine.expand : AsmLine → Instr
  | .offset k p => Instr.offset k p
  | .pack f p => .pack f p
  | .clrmask p => .pack .input p
  | .offsetGpset p => .offsetSet p
  | .offsetGppuppdncntrl p => .offsetPud p
  | .callOffset k p => Instr.offset k p
  | .callPack f p => .pack f p
  | .callClearMask p => .pack .input p

/-- The `.bits` component of a result (R57). -/
def Result.bits? : Result → Option Word32
  | .offset _ => none
  | .packed b _ => some b
  | .fault _ => none

/-- The `.clear_mask` component of a result (R57). -/
def Result.clearMask? : Result → Option Word32
  | .offset _ => none
  | .packed _ m => some m
  | .fault _ => none

/-- The mnemonic suffix of a kind (R19). -/
def suffix : RegisterKind → String
  | .functionSelect => "FSEL"
  | .set => "SET"
  | .clear => "CLR"
  | .level => "LEV"
  | .eventDetectStatus => "EDS"
  | .risingEdge => "REN"
  | .fallingEdge => "FEN"
  | .highDetect => "HEN"
  | .lowDetect => "LEN"
  | .asyncRising => "AREN"
  | .asyncFalling => "AFEN"
  | .pullUpDown => "PUD"

/-- The source's name of a kind (R19, R57). -/
def kindName : RegisterKind → String
  | .functionSelect => "FunctionSelect"
  | .set => "Set"
  | .clear => "Clear"
  | .level => "Level"
  | .eventDetectStatus => "EventDetectStatus"
  | .risingEdge => "RisingEdge"
  | .fallingEdge => "FallingEdge"
  | .highDetect => "HighDetect"
  | .lowDetect => "LowDetect"
  | .asyncRising => "AsyncRising"
  | .asyncFalling => "AsyncFalling"
  | .pullUpDown => "PullUpDown"

/-- The source's name of a function (R57). -/
def functionName : PinFunction → String
  | .input => "Input"
  | .output => "Output"
  | .alt0 => "Alt0"
  | .alt1 => "Alt1"
  | .alt2 => "Alt2"
  | .alt3 => "Alt3"
  | .alt4 => "Alt4"
  | .alt5 => "Alt5"

/-- The text of a spelled request (R57, R58). -/
def AsmLine.text : AsmLine → String
  | .offset k p => "OFFSET." ++ suffix k ++ " " ++ toString p
  | .pack f p => "PACK " ++ functionName f ++ ", " ++ toString p
  | .clrmask p => "CLRMASK " ++ toString p
  | .offsetGpset p => "OFFSET.GPSET " ++ toString p
  | .offsetGppuppdncntrl p => "OFFSET.GPPUPPDNCNTRL " ++ toString p
  | .callOffset k p => "offset(" ++ kindName k ++ ", " ++ toString p ++ ")"
  | .callPack f p => "pack(" ++ functionName f ++ ", " ++ toString p ++ ")"
  | .callClearMask p => "clear_mask(" ++ toString p ++ ")"

/-- The words of a line: what blanks separate; `word` is the word being read, last letter first. -/
def splitWords (word : List Char) : List Char → List (List Char)
  | [] => if word = [] then [] else [word.reverse]
  | c :: cs =>
    if c = ' ' then
      if word = [] then splitWords [] cs else word.reverse :: splitWords [] cs
    else splitWords (c :: word) cs

/-- A line without its comment, which starts at `;` (R57). -/
def withoutComment : List Char → List Char
  | [] => []
  | c :: cs => if c = ';' then [] else c :: withoutComment cs

/-- The words of a line of text. -/
def lineWords (line : String) : List (List Char) := splitWords [] (withoutComment line.toList)

/-- The value of a decimal numeral, `acc` the value of the digits before. -/
def digits (acc : Nat) : List Char → Option Nat
  | [] => some acc
  | c :: cs => if '0' ≤ c ∧ c ≤ '9' then digits (acc * 10 + (c.toNat - '0'.toNat)) cs else none

/-- `<pin>` is a decimal numeral from 0 to 255 (R57). -/
def pinNumeral (word : List Char) : Option Nat :=
  if word = [] then none
  else match digits 0 word with
    | none => none
    | some n => if n < 2 ^ Config.pinWidth then some n else none

/-- A word with its last letter taken off, if that letter is `c`. -/
def withoutLast (c : Char) (word : List Char) : Option (List Char) :=
  if word.getLast? = some c then some word.dropLast else none

/-- The kind a name stands for, among the twelve, under a way of naming them. -/
def findKind (name : RegisterKind → String) (word : List Char) : Option RegisterKind :=
  kindsInOrder.find? fun k => (name k).toList = word

/-- The function a name stands for. -/
def findFunction (word : List Char) : Option PinFunction :=
  functionsInOrder.find? fun f => (functionName f).toList = word

/-- A mnemonic and a pin: `OFFSET.<SUFFIX>`, the two aliases, and `CLRMASK` (R57, R58). -/
def readMnemonic (word : List Char) (pin : Nat) : Option AsmLine :=
  if word = "CLRMASK".toList then some (.clrmask pin)
  else if word = "OFFSET.GPSET".toList then some (.offsetGpset pin)
  else if word = "OFFSET.GPPUPPDNCNTRL".toList then some (.offsetGppuppdncntrl pin)
  else (findKind (fun k => "OFFSET." ++ suffix k) word).map fun k => .offset k pin

/-- A call `offset(<Kind>, <pin>)` or `pack(<Function>, <pin>)`, its first word without the comma. -/
def readCall (word : List Char) (pin : Nat) : Option AsmLine :=
  match findKind (fun k => "offset(" ++ kindName k) word with
  | some k => some (.callOffset k pin)
  | none => (functionsInOrder.find? fun f => ("pack(" ++ functionName f).toList = word).map
      fun f => .callPack f pin

/-- Read the words of a line (R57, R58). -/
def readWords : List (List Char) → Option AsmLine
  | [call] => do
    let inner ← withoutLast ')' call
    if inner.take 11 = "clear_mask(".toList then
      let pin ← pinNumeral (inner.drop 11)
      some (.callClearMask pin)
    else none
  | [first, second] =>
    match withoutLast ',' first with
    | some callee => do
      let numeral ← withoutLast ')' second
      let pin ← pinNumeral numeral
      readCall callee pin
    | none => do
      let pin ← pinNumeral second
      readMnemonic first pin
  | [first, second, third] =>
    if first = "PACK".toList then do
      let name ← withoutLast ',' second
      let f ← findFunction name
      let pin ← pinNumeral third
      some (.pack f pin)
    else none
  | _ => none

/-- Read a line of text; a line with no words is no request. -/
def readLine (line : String) : Option AsmLine := readWords (lineWords line)

/-- The canonical request word a line assembles to (R53, R57). -/
def assembleLine (line : String) : Option ReqWord := (readLine line).map fun l => encode l.expand

/-- A program: one request per line (R57). That a line with no words, blank or only a comment, is passed
over is the model's choice (log entry 13): R57 does not say what such a line is. -/
def assemble : List String → Option (List ReqWord)
  | [] => some []
  | line :: lines =>
    if lineWords line = [] then assemble lines
    else do
      let w ← assembleLine line
      let ws ← assemble lines
      some (w :: ws)

end Sys2Proof.Machine
end

