-- ==== Sys2Proof/Machine/Environment.lean ====
section
/-! DEFINITION. The environment the spec transcribes around the encoder and leaves out of its scope
(R5): the Mapped Region Manager (R103 to R108) and the requester's accesses to the mapped block (R34,
R39, R80, R109, R111, R112). A layer of its own: no step of the encoder reads it (log entry 14). Of
the GPIO controller it assumes only what the spec's own programs assume, that the fields of the pins in
a function-select word read back what was written (R80, log entry 15). -/

namespace Sys2Proof.Machine

/-- The manager's three states (R104); a mapping has a start and a size in bytes (R103, R111). -/
inductive Manager where
  | unopened
  | mapped (start size : Nat)
  | released
deriving DecidableEq, Repr

/-- What resolving the peripheral base answers (R105 step 1). The spec does not say whether its failure has
an operating-system code, so the answer says it: the model's choice (log entry 21). -/
inductive BaseReply where
  | resolved (base : Nat)
  | failed (osCode : Option Int)
deriving DecidableEq, Repr

/-- What the three steps of a construction are answered (R105), and the text an error of it carries. -/
structure ConstructReplies where
  /-- step 1: resolving the base -/
  base : BaseReply
  /-- step 2: the error of opening the device, none where it opens -/
  openError : Option Int
  /-- step 3: the error of mapping, none where it succeeds -/
  mapError : Option Int
  /-- the human-readable message of the error, if there is one (R108); the spec gives no text, so it is
  any: the model's choice (log entry 22) -/
  message : String
deriving DecidableEq, Repr

/-- The environmental errors (R108): recoverable values that carry a human-readable message and the
operating system's code where there is one. -/
inductive EnvError where
  | unsupportedHardware (message : String) (osCode : Option Int)
  | deviceOpen (message : String) (osCode : Int)
  | mapping (message : String) (osCode : Int)
deriving DecidableEq, Repr

/-- The message an error carries (R108). -/
def EnvError.message : EnvError → String
  | .unsupportedHardware t _ => t
  | .deviceOpen t _ => t
  | .mapping t _ => t

/-- The operating-system error code "when available" (R108): R105 has steps 2 and 3 carry one, and leaves
open whether step 1 does (log entry 21). -/
def EnvError.osCode : EnvError → Option Int
  | .unsupportedHardware _ e => e
  | .deviceOpen _ e => some e
  | .mapping _ e => some e

/-- The display form of an error: its message and the code's description where there is a code, else its
message (R108). `describe` is the operating system's text for a code (log entry 22). -/
def EnvError.display (describe : Int → String) (e : EnvError) : String :=
  match e.osCode with
  | some c => e.message ++ ": " ++ describe c
  | none => e.message

/-- Construction: Unopened to Mapped, a mapping of the fixed block size at the resolved base, or abandoned
with no partial mapping and an error (R104, R105). The model's choice (log entry 18): an abandoned
construction leaves the manager Unopened, and from another state there is no construction. -/
def Manager.construct (r : ConstructReplies) : Manager → Option (Manager × Option EnvError)
  | .unopened =>
    match r.base, r.openError, r.mapError with
    | .failed e, _, _ => some (.unopened, some (.unsupportedHardware r.message e))
    | .resolved _, some e, _ => some (.unopened, some (.deviceOpen r.message e))
    | .resolved _, none, some e => some (.unopened, some (.mapping r.message e))
    | .resolved b, none, none => some (.mapped b Config.blockSize, none)
  | .mapped _ _ => none
  | .released => none

/-- Teardown: Mapped to Released, exactly once; a failure of unmapping is swallowed (R104, R106). -/
def Manager.teardown (_unmapError : Option Int) : Manager → Option Manager
  | .unopened => none
  | .mapped _ _ => some .released
  | .released => none

/-- The environment: the physical base of the block (R33), the managers of the processes in view
(R112), the function-select words some access wrote, in strictly rising order of offset, and the
number of free values drawn. -/
structure World where
  periphBase : Nat
  managers : List Manager
  /-- the premise of the spec's programs that a function-select word is an ordinary word in all its
  bits; without it only the pins' fields are (U11, log entry 15) -/
  plainWords : Bool
  words : List (Nat × Word32)
  draws : Nat
deriving DecidableEq, Repr

/-- Why an access has no step (R111, U13). -/
inductive AccessFault where
  /-- there is no such manager; safe -/
  | noManager
  /-- "while unmapped": before construction or after release; safe -/
  | notMapped
  /-- the mapping does not start at the block: the offset is valid only relative to a correctly based
  mapping; safe -/
  | wrongBase
  /-- the mapping has another size than the block (R111); safe -/
  | wrongSize
  /-- the encoder answered with a fault, which ends the requester's run (R90); no access is made -/
  | encoder (cause : Cause)
deriving DecidableEq, Repr

/-- Why an access has no meaning. -/
inductive AccessRefusal where
  /-- not a 32-bit access, or at a misaligned register address (R39, R40, U9); safe -/
  | narrowOrMisaligned
  /-- an offset in no row of the address map (R37, U12); safe -/
  | unlisted
  /-- the encoder's answer is not of the operation's type (R11); never happens -/
  | unexpectedResult
deriving DecidableEq, Repr

/-- The physical address of a register: base plus offset; the addition is the requester's (R34). -/
def registerAddress (start o : Nat) : Nat := start + o

/-- A word of the block the spec lists (R36). -/
def listed (o : Nat) : Bool := addressMap.any fun r => r.offset == o

/-- A function-select word (R36). -/
def isFselWord (o : Nat) : Bool := addressMapFsel.any fun r => r.offset == o

/-- The stored word at an offset, none where no access wrote one. -/
def lookupWord (o : Nat) : List (Nat × Word32) → Option Word32
  | [] => none
  | c :: cs => if c.1 = o then some c.2 else lookupWord o cs

/-- Store a word, keeping the offsets strictly rising. -/
def storeWord (o : Nat) (v : Word32) : List (Nat × Word32) → List (Nat × Word32)
  | [] => [(o, v)]
  | c :: cs =>
    if o < c.1 then (o, v) :: c :: cs
    else if o = c.1 then (o, v) :: cs
    else c :: storeWord o v cs

/-- The canonical form of the stored words. -/
abbrev World.wf (w : World) : Prop :=
  w.words.Pairwise (fun a b => a.1 < b.1) ∧ ∀ c ∈ w.words, isFselWord c.1 = true

/-- Manager `m` is Mapped, correctly based and correctly sized: where an offset is valid (R34, R111). -/
abbrev World.Live (w : World) (m : Nat) : Prop :=
  w.managers[m]? = some (.mapped w.periphBase Config.blockSize)

/-- The guard of every access: a live mapping, based at the block and of its size (R111), the whole
32-bit word at a 4-byte aligned address (R39 to R41), a listed word (R36, R37). -/
def World.guard {α : Type} (w : World) (m o n : Nat) (perform : Host.Outcome α AccessFault AccessRefusal) :
    Host.Outcome α AccessFault AccessRefusal :=
  match w.managers[m]? with
  | none => .fault .noManager
  | some .unopened => .fault .notMapped
  | some .released => .fault .notMapped
  | some (.mapped start size) =>
    if start ≠ w.periphBase then .fault .wrongBase
    else if size ≠ Config.blockSize then .fault .wrongSize
    else if n ≠ 4 ∨ registerAddress start o % 4 ≠ 0 then .refused .narrowOrMisaligned
    else if listed o then perform
    else .refused .unlisted

/-- The bits of a function-select word that belong to valid pins: all but bits 31 and 30, and in word 5
all but fields 8 and 9 too (R23). -/
def pinBits (o : Nat) : Word32 := if o = 0x14 then 0x00FFFFFF#32 else 0x3FFFFFFF#32

/-- What a read of the word at `o` gives: of a function-select word that an access wrote, the
pins' fields, the other bits drawn afresh (U11) unless words are plain; any other word is a fresh free
value (U10). -/
def World.wordAt (w : World) (o : Nat) : Word32 :=
  let free := Config.undeterminedWord o w.draws
  if isFselWord o then
    match lookupWord o w.words with
    | none => free
    | some v =>
      if w.plainWords then v else (v &&& pinBits o) ||| (free &&& ~~~(pinBits o))
  else free

/-- `MemRead(o, n)` through manager `m` (R10, R80). DESIGN CHOICE (log entry 20): the accesses of several
requesters happen one after the other, and a read sees every write before it, through whichever manager;
R43 (c) gives them no order, and D10 only a single requester's. -/
def World.memRead (w : World) (m o n : Nat) : Host.Outcome (Word32 × World) AccessFault AccessRefusal :=
  w.guard m o n (.next (w.wordAt o, { w with draws := w.draws + 1 }))

/-- `MemWrite(o, n, v)` through manager `m` (R10, R80). What a write of another word than a
function-select word does is not in the source (R38): such a word is read as a free value. That the next
access sees the write, through whichever manager, is a DESIGN CHOICE (log entry 20). -/
def World.memWrite (w : World) (m o n : Nat) (v : Word32) :
    Host.Outcome World AccessFault AccessRefusal :=
  w.guard m o n (.next (if isFselWord o then { w with words := storeWord o v w.words } else w))

/-- What the encoder answers to an operation (R14): its answer depends on the request alone (R29), so
any state may ask. -/
def ask (i : Instr) : Option Result :=
  match exec i State.reset with
  | .next s => s.response
  | .fault _ => none
  | .refused _ => none

/-- The update of R79: `(w & m) | b`. -/
def updateWord (w bits mask : Word32) : Word32 := (w &&& mask) ||| bits

/-- What a requester holds between the read and the write of R80. -/
structure Update where
  offset : Nat
  bits : Word32
  mask : Word32
  old : Word32
deriving DecidableEq, Repr

/-- The first half of `set_function` (R80): ask for the offset and the words, read the word. A fault of
the encoder stops it before any access. -/
def World.beginUpdate (w : World) (m : Nat) (f : PinFunction) (pin : Nat) :
    Host.Outcome (Update × World) AccessFault AccessRefusal :=
  match ask (.offsetFsel pin), ask (.pack f pin) with
  | some (.fault c), _ => .fault (.encoder c)
  | _, some (.fault c) => .fault (.encoder c)
  | some (.offset o), some (.packed b k) =>
    match w.memRead m o 4 with
    | .next p => .next (⟨o, b, k, p.1⟩, p.2)
    | .fault x => .fault x
    | .refused x => .refused x
  | _, _ => .refused .unexpectedResult

/-- The second half of `set_function` (R80): write `(w & m) | b` of the word that was read. -/
def World.finishUpdate (w : World) (m : Nat) (u : Update) :
    Host.Outcome World AccessFault AccessRefusal :=
  w.memWrite m u.offset 4 (updateWord u.old u.bits u.mask)

/-- `set_function(function, pin)` with nothing between the read and the write: the single-writer
premise of R109. -/
def World.setFunction (w : World) (m : Nat) (f : PinFunction) (pin : Nat) :
    Host.Outcome World AccessFault AccessRefusal :=
  match w.beginUpdate m f pin with
  | .next p => p.2.finishUpdate m p.1
  | .fault x => .fault x
  | .refused x => .refused x

/-- Construct manager `m` (R105): its error, if any, and the world after. -/
def World.construct (w : World) (m : Nat) (r : ConstructReplies) : Option (World × Option EnvError) :=
  match w.managers[m]? with
  | none => none
  | some x => (x.construct r).map fun p => ({ w with managers := w.managers.set m p.1 }, p.2)

/-- Tear manager `m` down (R106). -/
def World.teardown (w : World) (m : Nat) (unmapError : Option Int) : Option World :=
  match w.managers[m]? with
  | none => none
  | some x => (x.teardown unmapError).map fun y => { w with managers := w.managers.set m y }

/-- The order of a word's bytes in the block, a parameter of the requester's access (R39, U8). -/
inductive ByteOrder where
  | little
  | big
deriving DecidableEq, Repr

/-- The byte at `offset + i` of a word: under little-endian order, the default, bits `8i + 7` down to
`8i` (R39). -/
def wordByte (v : Word32) (i : Nat) (order : ByteOrder := .little) : BitVec 8 :=
  match order with
  | .little => v.extractLsb' (8 * i) 8
  | .big => v.extractLsb' (8 * (3 - i)) 8

end Sys2Proof.Machine
end

