-- ==== Sys2Proof/Safety.lean ====
section
/-! DEFINITION. What claims call a good state and a good run: the results a requester has and will
have, completed and faulted runs (R14, R90), and the invariant every step keeps. -/

namespace Sys2Proof.Machine

/-- The results of a requester's run so far, oldest first (R14). -/
def State.results (s : State) (q : Nat) : List Result :=
  (s.log.filter fun a => a.requester == q).map Answer.result

/-- The words of a requester's requests that wait (R14). -/
def State.pending (s : State) (q : Nat) : List ReqWord :=
  (s.queue.filter fun r => r.requester == q).map Request.word

/-- A list of results up to its first fault, that fault included: "a run ends at its first fault"
(R90). -/
def uptoFault : List Result → List Result
  | [] => []
  | r :: rs => if r.isFault then [r] else r :: uptoFault rs

/-- The results a requester's run has and will have, computed from its own requests alone: what it
has, then the contract's answers to its waiting words up to the first fault; nothing more once its
run has ended (R14, R90, R97). -/
def State.foretold (s : State) (q : Nat) : List Result :=
  if s.ended q then s.results q
  else s.results q ++ uptoFault ((s.pending q).map Contract.answerWord)

/-- A faulted run: some step of it yielded a fault (R14). -/
abbrev State.Faulted (s : State) (q : Nat) : Prop := s.ended q = true

/-- A completed run: every request answered, none with a fault (R14: "not a successful (final) run"
otherwise). -/
abbrev State.Completed (s : State) (q : Nat) : Prop := s.ended q = false ∧ s.pending q = []

/-- The invariant of the machine. -/
structure State.Inv (s : State) : Prop where
  /-- every result in the log is the contract's answer to its own request word (R14, R29, R101) -/
  answersPure : ∀ a ∈ s.log, a.result = Contract.answerWord a.word
  /-- after a fault, nothing more is answered to that requester (R90) -/
  faultLast : s.log.Pairwise fun a b => a.result.isFault = true → b.requester ≠ a.requester
  /-- the ports show the last answer: the presented request with its result (R26, R27); that both stay
  there is the model's choice (log entry 19) -/
  lastShown : s.log.getLast? =
    match s.request, s.response with
    | some r, some x => some ⟨r.requester, r.word, x⟩
    | _, _ => none

end Sys2Proof.Machine
end

