-- ==== Sys2Proof/Certificates/Slice0/Obligations.lean ====
section
/-! DEFINITION. The statements for the provers. The field `draws` is the model's own counter of free
values (log entry 9): statements say that an answer advances it, never what it holds. -/

open Sys2Proof Sys2Proof.Machine

/-! ## The request word (30_encoding.md) -/

/-- D20: "encode-then-decode is the identity on typed requests". Every operation, every pin the port
carries, every function. -/
def Obligations.DecodeEncodeRoundTrip : Prop :=
  ∀ i : Instr, i.WellFormed → decode (encode i) = .ok i

/-- The other direction (R53, D20): a word that decodes is, but for its ignored field, the canonical
word of what it decodes to; so no bit is read twice or dropped. -/
def Obligations.EncodeOfDecodeIsCanonicalWord : Prop :=
  ∀ (w : ReqWord) (i : Instr), decode w = .ok i →
    i.WellFormed ∧ encode i = canonical w ∧ decode (canonical w) = .ok i

/-- R47: the value of the word, the bit position of each field, and nothing lost either way. -/
def Obligations.RequestWordHoldsItsFields : Prop :=
  (∀ p : InPorts,
    p.toWord.toNat =
      p.op.toNat * 0x8000 + p.kind.toNat * 0x0800 + p.func.toNat * 0x0100 + p.pin.toNat ∧
    InPorts.ofWord p.toWord = p) ∧
  ∀ w : ReqWord,
    (InPorts.ofWord w).toWord = w ∧
    (InPorts.ofWord w).op.getLsbD 0 = w.getLsbD 15 ∧
    (∀ i < 4, (InPorts.ofWord w).kind.getLsbD i = w.getLsbD (11 + i)) ∧
    (∀ i < 3, (InPorts.ofWord w).func.getLsbD i = w.getLsbD (8 + i)) ∧
    (∀ i < 8, (InPorts.ofWord w).pin.getLsbD i = w.getLsbD i)

/-- R52: the three cases of `decode`, for every value of every field, and what each executes as. -/
def Obligations.DecodeFollowsTheFields : Prop :=
  ∀ (p : InPorts) (s : State),
    (p.op = 0#1 → 12 ≤ p.kind.toNat →
      decode p.toWord = .error (.illegalKind p.kind.toNat) ∧
      execWord p.toWord s =
        .next { s with response := some (.fault .illegalKind), draws := s.draws + 1 }) ∧
    (p.op = 0#1 → p.kind.toNat < 12 → ∃ k : RegisterKind, k.code = p.kind ∧
      decode p.toWord = .ok (Instr.offset k p.pin.toNat) ∧
      execWord p.toWord s = exec (Instr.offset k p.pin.toNat) s) ∧
    (p.op = 1#1 → ∃ f : PinFunction, f.code = p.func ∧
      decode p.toWord = .ok (.pack f p.pin.toNat) ∧
      execWord p.toWord s = exec (.pack f p.pin.toNat) s)

/-- R53: a field that is ignored changes neither the operation nor the answer; a reserved `KIND` code in
a `PACK` request is no fault; the canonical word has zero in the ignored field. -/
def Obligations.IgnoredFieldsChangeNothing : Prop :=
  (∀ (p : InPorts) (f : BitVec 3) (s : State), p.op = 0#1 →
    decode { p with func := f }.toWord = decode p.toWord ∧
    execWord { p with func := f }.toWord s = execWord p.toWord s) ∧
  (∀ (p : InPorts) (k : BitVec 4) (s : State), p.op = 1#1 →
    decode { p with kind := k }.toWord = decode p.toWord ∧
    execWord { p with kind := k }.toWord s = execWord p.toWord s ∧
    ∃ i, decode p.toWord = .ok i) ∧
  (∀ i : Instr,
    (i.kind?.isSome = true → (InPorts.ofWord (encode i)).func = 0#3) ∧
    (i.kind? = none → (InPorts.ofWord (encode i)).kind = 0#4))

/-- R54: the illegal words are `0x6000` to `0x7FFF`; each names no operation and raises
`IllegalKindFault`, cause code 2, whatever its `PIN`. -/
def Obligations.ReservedKindWordsAreIllegal : Prop :=
  ∀ w : ReqWord,
    (w &&& 0xE000#16 = 0x6000#16 ↔ 0x6000 ≤ w.toNat ∧ w.toNat ≤ 0x7FFF) ∧
    (w &&& 0xE000#16 = 0x6000#16 ↔
      (InPorts.ofWord w).op = 0#1 ∧ 12 ≤ (InPorts.ofWord w).kind.toNat) ∧
    (w &&& 0xE000#16 = 0x6000#16 → ∀ s : State,
      (∀ i, decode w ≠ .ok i) ∧
      execWord w s =
        .next { s with response := some (.fault .illegalKind), draws := s.draws + 1 } ∧
      Cause.illegalKind.code = 2#2)

/-- R56: the thirteen rows and the illegal row are disjoint and cover every word, and the row a word
lies in is the row of what it decodes to. -/
def Obligations.OpcodeMapPartitionsTheWords : Prop :=
  (∀ w : ReqWord, ∃! row, row ∈ opcodeRows ++ [illegalRow] ∧ w &&& row.mask = row.pattern) ∧
  (∀ (w : ReqWord) (i : Instr), decode w = .ok i →
    i.row ∈ opcodeRows ∧ w &&& i.row.mask = i.row.pattern) ∧
  (∀ (w : ReqWord) (e : DecodeReject), decode w = .error e →
    w &&& illegalRow.mask = illegalRow.pattern)

/-- R49: the code of each kind, on the canonical word, and the base it stands for, which is what pin 0
is answered with; codes ascend with the bases, and codes 12 to 15 name no kind. -/
def Obligations.KindCodesAscendWithTheirBases : Prop :=
  kindRows.Pairwise (fun a b => a.2.1 < b.2.1 ∧ a.2.2 < b.2.2) ∧
  (∀ (c : BitVec 4) (k : RegisterKind), 12 ≤ c.toNat → k.code ≠ c) ∧
  ∀ (k : RegisterKind) (c b : Nat), (k, c, b) ∈ kindRows →
    ∀ (pin : Nat) (s : State), pin < 256 →
      (encode (Instr.offset k pin)).toNat = c * 0x0800 + pin ∧
      exec (Instr.offset k 0) s =
        .next { s with response := some (.offset b), draws := s.draws + 1 }

/-- R50: `FUNC` is the code itself; every 3-bit value is the code of the function it decodes to, at every
pin and whatever the ignored `KIND`. -/
def Obligations.FuncFieldIsTheFunctionCode : Prop :=
  ([PinFunction.input, .output, .alt5, .alt4, .alt0, .alt1, .alt2, .alt3].map
      fun f => f.code.toNat) = [0, 1, 2, 3, 4, 5, 6, 7] ∧
  ∀ (k : BitVec 4) (c : BitVec 3) (p : BitVec 8), ∃ f : PinFunction, f.code = c ∧
    decode (InPorts.toWord ⟨1#1, k, c, p⟩) = .ok (.pack f p.toNat)

/-- Words written out from R47 and the tables (95_test_vectors.md sections 1, 3.2 and 4). -/
def Obligations.KnownRequestWordsDecode : Prop :=
  decode 0b0000000000101101#16 = .ok (.offsetFsel 45) ∧
  decode 0b0000100000101101#16 = .ok (.offsetSet 45) ∧
  decode 0b0101111100011000#16 = .ok (.offsetPud 24) ∧
  decode 0b1000010000001110#16 = .ok (.pack .alt0 14) ∧
  decode 0b1110000100100000#16 = .ok (.pack .output 32) ∧
  decode 0b0111100011111111#16 = .error (.illegalKind 15)

/-! ## The operations (40_offset.md, 41_pack.md) -/

/-- R62 whole: the row of the map, the result of every valid pin, the fault of every other pin; the
ports are answered and nothing else changes. -/
def Obligations.OffsetFselAnswersItsWord : Prop :=
  (∀ w : ReqWord, w &&& 0xF800#16 = 0x0000#16 → decode w = .ok (.offsetFsel (w.toNat % 256))) ∧
  ∀ (pin : Nat) (s : State),
    (pin < 58 → exec (.offsetFsel pin) s =
      .next { s with response := some (.offset (0x00 + (pin / 10) * 4)), draws := s.draws + 1 }) ∧
    (58 ≤ pin → exec (.offsetFsel pin) s =
      .next { s with response := some (.fault .pinDomain), draws := s.draws + 1 })

/-- R63 to R72 whole, one row each: `base + (4 if pin > 31 else 0)`. -/
def Obligations.OffsetBankKindsAnswerTheirWord : Prop :=
  ∀ (op : Nat → Instr) (b : Nat) (pattern : ReqWord), (op, b, pattern) ∈ bankRows →
    (∀ w : ReqWord, w &&& 0xF800#16 = pattern → decode w = .ok (op (w.toNat % 256))) ∧
    ∀ (pin : Nat) (s : State),
      (pin < 58 → exec (op pin) s = .next
        { s with response := some (.offset (b + if pin > 31 then 4 else 0)),
                 draws := s.draws + 1 }) ∧
      (58 ≤ pin → exec (op pin) s =
        .next { s with response := some (.fault .pinDomain), draws := s.draws + 1 })

/-- R73 whole. -/
def Obligations.OffsetPudAnswersItsWord : Prop :=
  (∀ w : ReqWord, w &&& 0xF800#16 = 0x5800#16 → decode w = .ok (.offsetPud (w.toNat % 256))) ∧
  ∀ (pin : Nat) (s : State),
    (pin < 58 → exec (.offsetPud pin) s =
      .next { s with response := some (.offset (0xE4 + (pin / 16) * 4)), draws := s.draws + 1 }) ∧
    (58 ≤ pin → exec (.offsetPud pin) s =
      .next { s with response := some (.fault .pinDomain), draws := s.draws + 1 })

/-- R76 whole: the row of the map with `FUNC` as the code, both words at every valid pin for every
function, the complement taken after the shift, the fault of every other pin. -/
def Obligations.PackAnswersBitsAndMask : Prop :=
  (∀ w : ReqWord, w &&& 0x8000#16 = 0x8000#16 → ∃ f : PinFunction,
    f.code.toNat = w.toNat / 256 % 8 ∧ decode w = .ok (.pack f (w.toNat % 256))) ∧
  ∀ (f : PinFunction) (pin : Nat) (s : State),
    (pin < 58 → ∃ bits clearMask : Word32, exec (.pack f pin) s =
        .next { s with response := some (.packed bits clearMask), draws := s.draws + 1 } ∧
      bits.toNat = f.code.toNat * 2 ^ (pin % 10 * 3) ∧
      clearMask.toNat = 0xFFFFFFFF - 7 * 2 ^ (pin % 10 * 3)) ∧
    (58 ≤ pin → exec (.pack f pin) s =
      .next { s with response := some (.fault .pinDomain), draws := s.draws + 1 })

/-- R85: all thirteen operations, every pin from 58 on, in every state; nothing but the answer changes. -/
def Obligations.EveryOperationFaultsOutsidePinDomain : Prop :=
  ∀ (i : Instr) (s : State), 58 ≤ i.pin → exec i s =
    .next { s with response := some (.fault .pinDomain), draws := s.draws + 1 }

/-- R84 and R88: the faults are these two and no other; decoding comes before execution, so
`ILLEGAL_KIND` wins over `PIN_DOMAIN`; a legal word with a valid pin does not fault. -/
def Obligations.FaultsAndTheirPriority : Prop :=
  ∀ (p : InPorts) (s : State),
    (p.op = 0#1 ∧ 12 ≤ p.kind.toNat → execWord p.toWord s =
      .next { s with response := some (.fault .illegalKind), draws := s.draws + 1 }) ∧
    (p.op = 1#1 ∨ p.kind.toNat < 12 → 58 ≤ p.pin.toNat → execWord p.toWord s =
      .next { s with response := some (.fault .pinDomain), draws := s.draws + 1 }) ∧
    (p.op = 1#1 ∨ p.kind.toNat < 12 → p.pin.toNat < 58 → ∃ x : Result, x.isFault = false ∧
      execWord p.toWord s = .next { s with response := some x, draws := s.draws + 1 }) ∧
    Cause.pinDomain.code = 1#2 ∧ Cause.illegalKind.code = 2#2

/-- R11: an `OFFSET` answers with an offset (at most `0xF0`, a multiple of 4) or a fault, a `PACK` with
two words or a fault; an illegal word with a fault. -/
def Obligations.ResultsHaveTheirType : Prop :=
  (∀ (k : RegisterKind) (pin : Nat) (s : State), ∃ x : Result,
    exec (Instr.offset k pin) s = .next { s with response := some x, draws := s.draws + 1 } ∧
    ((∃ o, x = .offset o ∧ o ≤ 0xF0 ∧ o % 4 = 0) ∨ x = .fault .pinDomain)) ∧
  (∀ (f : PinFunction) (pin : Nat) (s : State), ∃ x : Result,
    exec (.pack f pin) s = .next { s with response := some x, draws := s.draws + 1 } ∧
    ((∃ b m, x = .packed b m) ∨ x = .fault .pinDomain)) ∧
  (∀ (w : ReqWord) (e : DecodeReject) (s : State), decode w = .error e → execWord w s =
    .next { s with response := some (.fault .illegalKind), draws := s.draws + 1 })

/-- R60: every `OFFSET` is the kind's base plus four times the word index of its class, and the word
index stays within the words of the class. -/
def Obligations.OffsetIsBasePlusWordIndex : Prop :=
  ∀ (k : RegisterKind) (pin : Nat) (s : State), pin < 58 →
    exec (Instr.offset k pin) s =
      .next { s with response := some (.offset (base k + 4 * wordIndex (classOf k) pin)),
                     draws := s.draws + 1 } ∧
    (classOf k = .f10 → wordIndex (classOf k) pin = pin / 10 ∧ pin / 10 ≤ 5) ∧
    (classOf k = .p16 → wordIndex (classOf k) pin = pin / 16 ∧ pin / 16 ≤ 3) ∧
    (classOf k = .b32 → wordIndex (classOf k) pin = pin / 32 ∧ pin / 32 ≤ 1)

/-- R61, R40: every offset is a multiple of 4, at most `0xF0`, its whole word inside the 256-byte block,
and the register address formed from the default base is aligned (R34). -/
def Obligations.OffsetsAreAlignedWordsOfTheBlock : Prop :=
  ∀ (i : Instr) (s t : State) (o : Nat), exec i s = .next t → t.response = some (.offset o) →
    o % 4 = 0 ∧ o ≤ 0xF0 ∧ o + 4 ≤ Config.blockSize ∧ (BitVec.ofNat 8 o).toNat = o ∧
    listed o = true ∧ registerAddress Config.periphBase o % 4 = 0

/-- R36: the address map is exact. A kind answers a valid pin with an offset exactly when a row of the
map gives that kind and offset and serves that pin; the thirty offsets strictly rise. -/
def Obligations.AddressMapIsExact : Prop :=
  addressMap.length = 30 ∧
  addressMap.Pairwise (fun a b => a.offset < b.offset) ∧
  ∀ (k : RegisterKind) (pin o : Nat) (s : State), pin < 58 →
    (exec (Instr.offset k pin) s =
        .next { s with response := some (.offset o), draws := s.draws + 1 } ↔
      ∃ row ∈ addressMap, row.kind = k ∧ row.offset = o ∧ row.firstPin ≤ pin ∧ pin ≤ row.lastPin)

/-- 95_test_vectors.md 2.4 property 4: the same offset means the same kind and the same word of it. -/
def Obligations.KindsNeverShareAnOffset : Prop :=
  ∀ (k l : RegisterKind) (p q : Nat) (s t u : State) (o : Nat),
    exec (Instr.offset k p) s = .next t → exec (Instr.offset l q) s = .next u →
    t.response = some (.offset o) → u.response = some (.offset o) →
    k = l ∧ wordIndex (classOf k) p = wordIndex (classOf l) q

/-- 95_test_vectors.md 2.4 property 5: a kind's offset does not fall as the pin rises. -/
def Obligations.OffsetsRiseWithThePin : Prop :=
  ∀ (k : RegisterKind) (p q : Nat) (s : State), p ≤ q → q < 58 → ∃ a b : Nat, a ≤ b ∧
    exec (Instr.offset k p) s = .next { s with response := some (.offset a), draws := s.draws + 1 } ∧
    exec (Instr.offset k q) s = .next { s with response := some (.offset b), draws := s.draws + 1 }

/-- R77: the mask of a pin is the same for every function. -/
def Obligations.ClearMaskIgnoresTheFunction : Prop :=
  ∀ (f g : PinFunction) (pin : Nat) (s : State), pin < 58 → ∃ b c m : Word32,
    exec (.pack f pin) s = .next { s with response := some (.packed b m), draws := s.draws + 1 } ∧
    exec (.pack g pin) s = .next { s with response := some (.packed c m), draws := s.draws + 1 }

/-- R78, R82: the range of `bits`, the three zeros of the mask and where they are, the two top bits. -/
def Obligations.PackWordsStayInTheirField : Prop :=
  ∀ (f : PinFunction) (pin : Nat) (s : State), pin < 58 → ∃ b m : Word32,
    exec (.pack f pin) s = .next { s with response := some (.packed b m), draws := s.draws + 1 } ∧
    b.toNat ≤ 0x38000000 ∧ b &&& m = 0#32 ∧ b &&& ~~~m = b ∧
    (∀ i < 32, m.getLsbD i = false ↔ pin % 10 * 3 ≤ i ∧ i ≤ pin % 10 * 3 + 2) ∧
    b.getLsbD 31 = false ∧ b.getLsbD 30 = false ∧ m.getLsbD 31 = true ∧ m.getLsbD 30 = true

/-- R79: the five field laws, for every old word. -/
def Obligations.FieldUpdateLaws : Prop :=
  ∀ (f : PinFunction) (pin : Nat) (s : State), pin < 58 → ∃ b m : Word32,
    exec (.pack f pin) s = .next { s with response := some (.packed b m), draws := s.draws + 1 } ∧
    ∀ w : Word32,
      (updateWord w b m).extractLsb' (pin % 10 * 3) 3 = f.code ∧
      (∀ i < 32, i < pin % 10 * 3 ∨ pin % 10 * 3 + 2 < i →
        (updateWord w b m).getLsbD i = w.getLsbD i) ∧
      updateWord (updateWord w b m) b m = updateWord w b m ∧
      (w ||| b).extractLsb' (pin % 10 * 3) 3 = f.code ||| w.extractLsb' (pin % 10 * 3) 3 ∧
      ∀ (g : PinFunction) (q : Nat), q < 58 → q % 10 ≠ pin % 10 → ∃ c n : Word32,
        exec (.pack g q) s =
          .next { s with response := some (.packed c n), draws := s.draws + 1 } ∧
        updateWord (updateWord w b m) c n = updateWord (updateWord w c n) b m

/-- R81, R75: pins a multiple of ten apart get the same words from `PACK`; the offset of the
function-select word and the mask together tell the valid pins apart. -/
def Obligations.WordAndFieldIdentifyThePin : Prop :=
  (∀ (f : PinFunction) (p q : Nat) (s : State), p < 58 → q < 58 → p % 10 = q % 10 →
    exec (.pack f p) s = exec (.pack f q) s) ∧
  ∀ (p q o : Nat) (m : Word32) (s : State), p < 58 → q < 58 →
    (∀ r, r = p ∨ r = q → exec (.offsetFsel r) s =
      .next { s with response := some (.offset o), draws := s.draws + 1 }) →
    (∀ r, r = p ∨ r = q → ∃ b, exec (.pack .output r) s =
      .next { s with response := some (.packed b m), draws := s.draws + 1 }) →
    p = q

/-- R58: what the pseudo forms, the aliases and the source's calls (R57) expand to, and why `CLRMASK` may fix the function: its mask
is that of every function. -/
def Obligations.AliasesExpandToOperations : Prop :=
  (∀ p : Nat,
    (AsmLine.clrmask p).expand = .pack .input p ∧
    (AsmLine.offsetGpset p).expand = .offsetSet p ∧
    (AsmLine.offsetGppuppdncntrl p).expand = .offsetPud p ∧
    (AsmLine.callClearMask p).expand = .pack .input p ∧
    (∀ k, (AsmLine.offset k p).expand = Instr.offset k p ∧
      (AsmLine.callOffset k p).expand = Instr.offset k p) ∧
    (∀ f, (AsmLine.pack f p).expand = .pack f p ∧ (AsmLine.callPack f p).expand = .pack f p)) ∧
  ∀ (f : PinFunction) (p : Nat) (s : State), p < 58 → ∃ t u : State, ∃ m : Word32,
    exec (AsmLine.clrmask p).expand s = .next t ∧ exec (.pack f p) s = .next u ∧
    t.response.bind Result.clearMask? = some m ∧ u.response.bind Result.clearMask? = some m

/-! ## Purity, the contracts, the ports (00_scope.md, 10_state.md) -/

/-- The machine answers every one of the 65536 words, in every state, as the contracts written from
R9, R18, R47, R52, R60 and R76 do (`Contract.answerWord`): nothing but the answer changes. -/
def Obligations.EveryWordAnswersAsTheContract : Prop :=
  ∀ (w : ReqWord) (s : State), execWord w s =
    .next { s with response := some (Contract.answerWord w), draws := s.draws + 1 }

/-- R18: for a pin that is any integer the contract faults exactly outside `[0, 58)`, and for a natural
pin of any size (any port width, U6) the machine answers as the contract. -/
def Obligations.TypedRequestsMeetTheContracts : Prop :=
  ∀ pin : Int,
    (∀ k : RegisterKind,
      (Contract.offset k pin = .fault .pinDomain ↔ ¬(0 ≤ pin ∧ pin < 58)) ∧
      (0 ≤ pin → ∀ s : State, exec (Instr.offset k pin.toNat) s =
        .next { s with response := some (Contract.offset k pin), draws := s.draws + 1 })) ∧
    ∀ f : PinFunction,
      (Contract.pack f pin = .fault .pinDomain ↔ ¬(0 ≤ pin ∧ pin < 58)) ∧
      (0 ≤ pin → ∀ s : State, exec (.pack f pin.toNat) s =
        .next { s with response := some (Contract.pack f pin), draws := s.draws + 1 })

/-- R29: identical requests give identical results, in any two states and for any two requesters. -/
def Obligations.AnswerIgnoresState : Prop :=
  ∀ (w : ReqWord) (s t : State), ∃ x : Result,
    execWord w s = .next { s with response := some x, draws := s.draws + 1 } ∧
    execWord w t = .next { t with response := some x, draws := t.draws + 1 }

/-- R15, R31, R91: the frame. An operation answers, and leaves the waiting requests, the presented
request and all earlier results as they were. -/
def Obligations.OperationsOnlyAnswer : Prop :=
  ∀ (i : Instr) (s : State), ∃ t : State, exec i s = .next t ∧
    t.queue = s.queue ∧ t.request = s.request ∧ t.log = s.log ∧ t.response.isSome = true

/-- R27: what each port carries for each result of a presented request; exactly one of the three valid
bits is 1; cause 3 does not occur. A data port whose valid bit is 0 is left open (R28). -/
def Obligations.OutputPortsCarryTheResult : Prop :=
  ∀ (s : State) (rq : Request), s.request = some rq →
    (∀ o, o ≤ 0xF0 → s.response = some (.offset o) →
      s.outputs.fault = false ∧ s.outputs.cause = 0#2 ∧ s.outputs.offsetValid = true ∧
      s.outputs.offset.toNat = o ∧ s.outputs.packValid = false) ∧
    (∀ b m, s.response = some (.packed b m) →
      s.outputs.fault = false ∧ s.outputs.cause = 0#2 ∧ s.outputs.offsetValid = false ∧
      s.outputs.packValid = true ∧ s.outputs.bits = b ∧ s.outputs.clearMask = m) ∧
    (∀ c, s.response = some (.fault c) →
      s.outputs.fault = true ∧ s.outputs.cause = (if c = .pinDomain then 1#2 else 2#2) ∧
      s.outputs.offsetValid = false ∧ s.outputs.packValid = false)

/-- R89: the whole effect of a fault is its result, on the ports `FAULT = 1`, `CAUSE` = the code and
both valid bits 0; no fault bit is kept, so the next answer is what it would have been. -/
def Obligations.FaultIsOnlyItsResult : Prop :=
  ∀ (w : ReqWord) (s t : State) (rq : Request) (c : Cause), s.request = some rq →
    execWord w s = .next t → t.response = some (.fault c) →
    t = { s with response := some (.fault c), draws := s.draws + 1 } ∧
    t.outputs.fault = true ∧ t.outputs.cause = c.code ∧
    t.outputs.offsetValid = false ∧ t.outputs.packValid = false ∧
    ∀ v : ReqWord, ∃ x : Result,
      execWord v s = .next { s with response := some x, draws := s.draws + 1 } ∧
      execWord v t = .next { t with response := some x, draws := t.draws + 1 }

/-! ## Steps and runs (00_scope.md section 5, 60_exceptions.md). Queue, log and requester numbers are
the model's rendering of a run: log entries 1, 3, 5 and 6. That request and result stay on the ports after
a step is its choice too: log entry 19. -/

/-- A step presents the first request of a live run, runs what its word decodes to, and delivers the
result: the queue moves on, the ports hold request and result, the log gains one answer. -/
def Obligations.StepRunsTheDecodedOperation : Prop :=
  ∀ (s : State) (r : Request) (rest : List Request) (i : Instr),
    s.queue.filter (fun r => !s.ended r.requester) = r :: rest → decode r.word = .ok i →
    ∃ x : Result,
      exec i { s with queue := rest, request := some r } =
        .next { s with queue := rest, request := some r, response := some x,
                       draws := s.draws + 1 } ∧
      step s = .next
        { queue := rest, request := some r, response := some x,
          log := s.log ++ [⟨r.requester, r.word, x⟩], draws := s.draws + 1 }

/-- The same for a word that decodes to nothing: the step answers `ILLEGAL_KIND` (R52, R86). -/
def Obligations.StepAnswersAnIllegalWord : Prop :=
  ∀ (s : State) (r : Request) (rest : List Request) (e : DecodeReject),
    s.queue.filter (fun r => !s.ended r.requester) = r :: rest → decode r.word = .error e →
    step s = .next
      { queue := rest, request := some r, response := some (.fault .illegalKind),
        log := s.log ++ [⟨r.requester, r.word, .fault .illegalKind⟩], draws := s.draws + 1 }

/-- R14 and R91 in the model's terms: a step takes one request and yields one result, a function of that
request's word alone; every earlier answer stays as it was; there is no step exactly when no live
request waits, and no step is refused. -/
def Obligations.StepAnswersOneRequest : Prop :=
  (∀ s t : State, step s = .next t → ∃ (r : Request) (rest : List Request),
    s.live = r :: rest ∧ t.queue = rest ∧ t.request = some r ∧
    t.response = some (Contract.answerWord r.word) ∧
    t.log = s.log ++ [⟨r.requester, r.word, Contract.answerWord r.word⟩]) ∧
  (∀ s : State, s.live = [] ↔ ∃ f, step s = .fault f) ∧
  ∀ (s : State) (x : Refusal), step s ≠ .refused x

/-- The invariant of Safety.lean is kept by every step: every logged result is the contract's answer to
its own word, nothing is answered to a requester after its fault, the ports show the last answer. -/
def Obligations.StepKeepsTheInvariant : Prop :=
  ∀ s t : State, s.Inv → step s = .next t → t.Inv

/-- The invariant holds right after reset. -/
def Obligations.ResetHasTheInvariant : Prop := State.reset.Inv

/-- R90: the step that answers a fault ends its requester's run, and a run that has ended gets no more
results and stays ended, however many steps follow. -/
def Obligations.FaultEndsItsRun : Prop :=
  (∀ (s t : State) (r : Request) (c : Cause), step s = .next t → t.request = some r →
    t.response = some (.fault c) → t.ended r.requester = true) ∧
  ∀ (q k : Nat) (s t : State), s.ended q = true → Host.Core.run Sys2Proof.core k s = .next t →
    t.results q = s.results q ∧ t.ended q = true

/-- R97, R43 (a), R14: whatever requests of others lie between, and however many steps are taken, the
results a requester has and will have are those of its own words up to its first fault; once no live
request waits, they are the results it has. -/
def Obligations.OwnRequestsDecideEveryRun : Prop :=
  ∀ (k q : Nat) (s t : State), Host.Core.run Sys2Proof.core k s = .next t →
    t.foretold q = s.foretold q ∧ (t.live = [] → t.results q = s.foretold q)

/-- R114 with R90: no requester waits forever. From every state, at most as many steps as requests wait lead
to a state where every requester has the results its run was to have, its own words' answers up to its
first fault, one answer a step, and no live request waits. -/
def Obligations.EveryRunIsServedToItsEnd : Prop :=
  ∀ s : State, ∃ (k : Nat) (t : State), k ≤ s.queue.length ∧
    Host.Core.run Sys2Proof.core k s = .next t ∧ t.live = [] ∧
    t.log.length = s.log.length + k ∧ ∀ q, t.results q = s.foretold q

/-- The word placed by `withFetchWord` is the one the very next step answers, in every state, also
right after reset (R101: no warm-up); what waited still waits (log entry 7; that the
response stands after the step: log entry 19). -/
def Obligations.PlacedWordRunsNext : Prop :=
  ∀ (s : State) (w : ReqWord), ∃ t : State, step (s.withFetchWord 16 w.toNat) = .next t ∧
    t.response = some (Contract.answerWord w) ∧ t.queue = s.live ∧
    t.log = s.log ++ [⟨s.freshRequester, w, Contract.answerWord w⟩] ∧
    s.ended s.freshRequester = false

/-! ## The environment layer (out of the spec's scope, R5; log entries 14 to 18 and 20 to 22) -/

/-- R80 with R79: through a live mapping of an aligned block, with nothing between the read and the write,
`set_function` completes for every valid pin and function and changes the pin's field and no other bit
and no other word. That a write is what the word then holds is the model's presumption (log entry
15). -/
def Obligations.SetFunctionChangesOnlyItsField : Prop :=
  ∀ (w : World) (m : Nat) (f : PinFunction) (pin : Nat), pin < 58 →
    w.Live m → w.periphBase % 4 = 0 →
    ∃ (t : World) (v : Word32), w.setFunction m f pin = .next t ∧
      t.managers = w.managers ∧ t.periphBase = w.periphBase ∧ t.plainWords = w.plainWords ∧
      lookupWord (pin / 10 * 4) t.words = some v ∧
      v.extractLsb' (pin % 10 * 3) 3 = f.code ∧
      (∀ i < 32, i < pin % 10 * 3 ∨ pin % 10 * 3 + 2 < i →
        v.getLsbD i = (w.wordAt (pin / 10 * 4)).getLsbD i) ∧
      ∀ a, a ≠ pin / 10 * 4 → lookupWord a t.words = lookupWord a w.words

/-- R110: an out-of-domain pin stops the requester at the encoder's fault, before any access. -/
def Obligations.InvalidPinReachesNoRegister : Prop :=
  ∀ (w : World) (m : Nat) (f : PinFunction) (pin : Nat), 58 ≤ pin →
    w.beginUpdate m f pin = .fault (.encoder .pinDomain) ∧
    w.setFunction m f pin = .fault (.encoder .pinDomain)

/-- R111: with no live mapping that has the block's base and size, every access faults. -/
def Obligations.NoAccessOutsideALiveMapping : Prop :=
  ∀ (w : World) (m : Nat), ¬w.Live m →
    ∀ (o n : Nat) (v : Word32),
      (∃ x, w.memRead m o n = .fault x) ∧ ∃ x, w.memWrite m o n v = .fault x

/-- R40, U9: the spec gives a misaligned or narrower access no behaviour; through a live mapping the model
refuses it by name (log entry 16), also where it is the base that is misaligned. -/
def Obligations.MisalignedAccessIsRefused : Prop :=
  ∀ (w : World) (m o n : Nat) (v : Word32), w.Live m →
    n ≠ 4 ∨ registerAddress w.periphBase o % 4 ≠ 0 →
    w.memRead m o n = .refused .narrowOrMisaligned ∧
    w.memWrite m o n v = .refused .narrowOrMisaligned

/-- R104: Unopened to Mapped or abandoned, Mapped to Released exactly once, Released final; a teardown
does not depend on whether unmapping fails (R106); an access completes only while Mapped. That an
abandoned construction leaves the manager Unopened, and that construction starts from Unopened only,
is the model's choice (log entry 18). -/
def Obligations.ManagerLifeCycle : Prop :=
  (∀ (x y : Manager) (r : ConstructReplies) (e : Option EnvError), x.construct r = some (y, e) →
    x = .unopened ∧ ((∃ b, y = .mapped b Config.blockSize ∧ e = none) ∨ (y = .unopened ∧ e.isSome = true))) ∧
  (∀ r : ConstructReplies, (Manager.unopened.construct r).isSome = true) ∧
  (∀ (b n : Nat) (u : Option Int), (Manager.mapped b n).teardown u = some .released) ∧
  (∀ (x y : Manager) (u : Option Int), x.teardown u = some y →
    (∃ b n, x = .mapped b n) ∧ y = .released) ∧
  (∀ (r : ConstructReplies) (u : Option Int),
    Manager.released.construct r = none ∧ Manager.released.teardown u = none) ∧
  ∀ (w t : World) (m o n : Nat) (v : Word32),
    w.memWrite m o n v = .next t ∨ w.memRead m o n = .next (v, t) →
    ∃ b k, w.managers[m]? = some (.mapped b k)

/-- R105: each step's failure ends the construction unmapped, with the error of that step, which carries
the message and the operating system's code where there is one, and is displayed as R108 says; only with
no failure is the block mapped. That "unmapped" is the state Unopened is the model's choice (log entry
18), and so are that resolution may fail with a code or without one (log entry 21) and that the texts
are any (log entry 22). -/
def Obligations.ConstructionStopsAtItsFirstFailure : Prop :=
  ∀ (b : Nat) (e d : Int) (c x y : Option Int) (t : String) (describe : Int → String),
    (∃ err, Manager.unopened.construct ⟨.failed c, x, y, t⟩ = some (.unopened, some err) ∧
      err = .unsupportedHardware t c ∧ err.message = t ∧ err.osCode = c ∧
      (c = none → err.display describe = t) ∧
      (c = some d → err.display describe = t ++ ": " ++ describe d)) ∧
    (∃ err, Manager.unopened.construct ⟨.resolved b, some e, y, t⟩ = some (.unopened, some err) ∧
      err = .deviceOpen t e ∧ err.message = t ∧ err.osCode = some e ∧
      err.display describe = t ++ ": " ++ describe e) ∧
    (∃ err, Manager.unopened.construct ⟨.resolved b, none, some e, t⟩ = some (.unopened, some err) ∧
      err = .mapping t e ∧ err.message = t ∧ err.osCode = some e ∧
      err.display describe = t ++ ": " ++ describe e) ∧
    Manager.unopened.construct ⟨.resolved b, none, none, t⟩ =
      some (.mapped b Config.blockSize, none)

/-- R39: under the default order the byte at `offset + i` holds bits `8i + 7` down to `8i`. -/
def Obligations.BytesOfAWordAreLittleEndian : Prop :=
  ∀ (v : Word32) (i j : Nat), i < 4 → j < 8 → (wordByte v i).getLsbD j = v.getLsbD (8 * i + j)

/-- R109: the update is not atomic. A requester that reads, and writes after another requester has set
the function of a neighbouring pin of the same word, puts that pin's old code back. That the read
returns the pins' fields as written is the model's presumption (log entry 15; R38 states nothing), and
that the accesses of the two come in this one order, each seen by the next, is its choice (log entry
20; R43 states none). -/
def Obligations.LateWriteLosesTheOtherUpdate : Prop :=
  ∀ (w : World) (m l : Nat) (f g : PinFunction) (p q : Nat) (v : Word32),
    p < 58 → q < 58 → p / 10 = q / 10 → p % 10 ≠ q % 10 →
    w.Live m → w.Live l → w.periphBase % 4 = 0 →
    lookupWord (p / 10 * 4) w.words = some v →
    ∃ (u : Update) (w₁ w₂ w₃ : World) (x : Word32),
      w.beginUpdate m f p = .next (u, w₁) ∧ w₁.setFunction l g q = .next w₂ ∧
      w₂.finishUpdate m u = .next w₃ ∧ lookupWord (p / 10 * 4) w₃.words = some x ∧
      x.extractLsb' (p % 10 * 3) 3 = f.code ∧
      x.extractLsb' (q % 10 * 3) 3 = v.extractLsb' (q % 10 * 3) 3

/-- R112: two mappings of the block see the same registers: what one manager's user writes to a
function-select word, the other's reads, in the fields of the word's pins. The read-back of a written
field is the model's presumption (log entry 15), two managers over one block, and a write seen
by the next access through either, are its choices (log entries 18 and 20). -/
def Obligations.TwoMappingsSeeTheSameRegisters : Prop :=
  ∀ (w : World) (m l pin : Nat) (v : Word32), pin < 58 →
    w.Live m → w.Live l → w.periphBase % 4 = 0 →
    ∃ (t u : World) (x : Word32), w.memWrite m (pin / 10 * 4) 4 v = .next t ∧
      t.memRead l (pin / 10 * 4) 4 = .next (x, u) ∧
      x.extractLsb' (pin % 10 * 3) 3 = v.extractLsb' (pin % 10 * 3) 3

/-- Every completed access of the environment layer keeps the stored words in canonical form. -/
def Obligations.AccessesKeepTheWordsCanonical : Prop :=
  ∀ (w t : World) (m : Nat), w.wf →
    (∀ o n v, w.memWrite m o n v = .next t → t.wf) ∧
    (∀ o n v, w.memRead m o n = .next (v, t) → t.wf) ∧
    ∀ f pin, w.setFunction m f pin = .next t → t.wf
end

