-- ==== Sys2Proof/Laws/Decode.lean ====
section
/-! SUPPORT. The small laws of the code tables (R21, R49). -/

namespace Sys2Proof

@[simp] theorem RegisterKind.ofCode_code (k : RegisterKind) :
    RegisterKind.ofCode k.code = some k := by
  cases k <;> rfl

@[simp] theorem PinFunction.ofCode_code (f : PinFunction) : PinFunction.ofCode f.code = f := by
  cases f <;> rfl

@[simp] theorem Instr.offset_pin (k : RegisterKind) (p : Nat) : (Instr.offset k p).pin = p := by
  cases k <;> rfl

@[simp] theorem Instr.offset_kind (k : RegisterKind) (p : Nat) :
    (Instr.offset k p).kind? = some k := by
  cases k <;> rfl

/-- Well-formedness as a bound: the pin is one of the 256 the port carries (R26). -/
theorem Instr.wellFormed_iff (i : Instr) : i.WellFormed ↔ i.pin < 256 := Iff.rfl

/-- An operation is the `OFFSET` of a kind or a `PACK` (R2). -/
theorem Instr.offset_or_pack (i : Instr) :
    (∃ k p, i = Instr.offset k p) ∨ ∃ f p, i = .pack f p := by
  cases i with
  | offsetFsel p => exact .inl ⟨.functionSelect, p, rfl⟩
  | offsetSet p => exact .inl ⟨.set, p, rfl⟩
  | offsetClr p => exact .inl ⟨.clear, p, rfl⟩
  | offsetLev p => exact .inl ⟨.level, p, rfl⟩
  | offsetEds p => exact .inl ⟨.eventDetectStatus, p, rfl⟩
  | offsetRen p => exact .inl ⟨.risingEdge, p, rfl⟩
  | offsetFen p => exact .inl ⟨.fallingEdge, p, rfl⟩
  | offsetHen p => exact .inl ⟨.highDetect, p, rfl⟩
  | offsetLen p => exact .inl ⟨.lowDetect, p, rfl⟩
  | offsetAren p => exact .inl ⟨.asyncRising, p, rfl⟩
  | offsetAfen p => exact .inl ⟨.asyncFalling, p, rfl⟩
  | offsetPud p => exact .inl ⟨.pullUpDown, p, rfl⟩
  | pack f p => exact .inr ⟨f, p, rfl⟩

/-- The word of four fields as a number (R47): the fields do not overlap and nothing is lost. -/
theorem InPorts.toWord_toNat (p : InPorts) : p.toWord.toNat =
    p.op.toNat * 0x8000 + p.kind.toNat * 0x0800 + p.func.toNat * 0x0100 + p.pin.toNat := by
  have := p.op.isLt
  have := p.kind.isLt
  have := p.func.isLt
  have := p.pin.isLt
  simp [InPorts.toWord]
  omega

/-- Masking with `0xF800` keeps `OP` and `KIND` (R47, R56). -/
theorem word_and_F800 (w : ReqWord) : w &&& 0xF800#16 = (w >>> 11) <<< 11 := by
  ext i hi
  interval_cases i <;> simp

/-- Masking with `0x8000` keeps `OP` (R47, R56). -/
theorem word_and_8000 (w : ReqWord) : w &&& 0x8000#16 = (w >>> 15) <<< 15 := by
  ext i hi
  interval_cases i <;> simp

/-- Masking with `0xE000` keeps `OP` and the two high bits of `KIND` (R54). -/
theorem word_and_E000 (w : ReqWord) : w &&& 0xE000#16 = (w >>> 13) <<< 13 := by
  ext i hi
  interval_cases i <;> simp

/-- A word is in an `OFFSET` row exactly when its five high bits are the row's code. -/
theorem word_and_F800_eq (w : ReqWord) (c : Nat) (hc : c < 32) :
    w &&& 0xF800#16 = BitVec.ofNat 16 (c * 0x0800) ↔ w.toNat / 0x0800 = c := by
  have := w.isLt
  rw [word_and_F800, ← BitVec.toNat_inj]
  simp [Nat.shiftRight_eq_div_pow, Nat.shiftLeft_eq]
  omega

/-- A word is in the `PACK` row exactly when its high bit is 1. -/
theorem word_and_8000_eq (w : ReqWord) : w &&& 0x8000#16 = 0x8000#16 ↔ 0x8000 ≤ w.toNat := by
  have := w.isLt
  rw [word_and_8000, ← BitVec.toNat_inj]
  simp [Nat.shiftRight_eq_div_pow, Nat.shiftLeft_eq]
  omega

/-- A word is illegal exactly when it lies in `0x6000` to `0x7FFF` (R54). -/
theorem word_and_E000_eq (w : ReqWord) :
    w &&& 0xE000#16 = 0x6000#16 ↔ 0x6000 ≤ w.toNat ∧ w.toNat ≤ 0x7FFF := by
  have := w.isLt
  rw [word_and_E000, ← BitVec.toNat_inj]
  simp [Nat.shiftRight_eq_div_pow, Nat.shiftLeft_eq]
  omega

end Sys2Proof
end

