-- ==== Sys2Proof/Laws/Environment.lean ====
section
/-! SUPPORT. The laws of the stored words of the environment layer: read after write, everything else
unchanged, the canonical form kept; and what an access that completes can have done. -/

namespace Sys2Proof.Machine

@[simp] theorem lookupWord_storeWord_same (o : Nat) (v : Word32) (l : List (Nat × Word32)) :
    lookupWord o (storeWord o v l) = some v := by
  induction l with
  | nil => simp [storeWord, lookupWord]
  | cons c cs ih =>
    unfold storeWord
    split
    · simp [lookupWord]
    · split
      · simp [lookupWord]
      · rename_i h1 h2
        simp [lookupWord, Ne.symm h2, ih]

theorem lookupWord_storeWord_other {o a : Nat} (h : a ≠ o) (v : Word32) (l : List (Nat × Word32)) :
    lookupWord a (storeWord o v l) = lookupWord a l := by
  induction l with
  | nil => simp [storeWord, lookupWord, Ne.symm h]
  | cons c cs ih =>
    unfold storeWord
    split
    · simp [lookupWord, Ne.symm h]
    · split
      · rename_i h1 h2
        simp [lookupWord, Ne.symm h, ← h2]
      · simp [lookupWord, ih]

/-- Every stored cell is the new one or an old one. -/
theorem mem_storeWord {o : Nat} {v : Word32} {l : List (Nat × Word32)} {c : Nat × Word32}
    (h : c ∈ storeWord o v l) : c = (o, v) ∨ c ∈ l := by
  induction l with
  | nil => simpa [storeWord] using h
  | cons d ds ih =>
    unfold storeWord at h
    split at h
    · simpa using h
    · split at h
      · rcases List.mem_cons.mp h with h | h
        · exact .inl h
        · exact .inr (List.mem_cons_of_mem _ h)
      · rcases List.mem_cons.mp h with h | h
        · exact .inr (h ▸ List.mem_cons_self)
        · exact (ih h).imp_right (List.mem_cons_of_mem _)

/-- Storing a word keeps the offsets strictly rising. -/
theorem storeWord_pairwise {o : Nat} {v : Word32} {l : List (Nat × Word32)}
    (h : l.Pairwise fun a b => a.1 < b.1) : (storeWord o v l).Pairwise fun a b => a.1 < b.1 := by
  induction l with
  | nil => simp [storeWord]
  | cons c cs ih =>
    obtain ⟨hc, hcs⟩ := List.pairwise_cons.mp h
    unfold storeWord
    split
    · rename_i ho
      refine List.pairwise_cons.mpr ⟨fun d hd => ?_, h⟩
      rcases List.mem_cons.mp hd with rfl | hd
      · exact ho
      · exact lt_trans ho (hc d hd)
    · split
      · rename_i _ ho
        exact List.pairwise_cons.mpr ⟨fun d hd => ho ▸ hc d hd, hcs⟩
      · rename_i h1 h2
        refine List.pairwise_cons.mpr ⟨fun d hd => ?_, ih hcs⟩
        rcases mem_storeWord hd with rfl | hd
        · exact lt_of_le_of_ne (Nat.not_lt.mp h1) (Ne.symm h2)
        · exact hc d hd

/-- A pin's field lies in the bits of its word that read back. -/
theorem pinBits_field {pin i : Nat} (hp : pin < 58) (hi : i < 3) :
    (pinBits (pin / 10 * 4)).getLsbD (pin % 10 * 3 + i) = true := by
  interval_cases pin <;> interval_cases i <;> decide

/-- A pin's field of a word that an access wrote reads back. -/
theorem World.wordAt_field {w : World} {pin i : Nat} {v : Word32} (hp : pin < 58) (hi : i < 3)
    (hw : isFselWord (pin / 10 * 4) = true) (hv : lookupWord (pin / 10 * 4) w.words = some v) :
    (w.wordAt (pin / 10 * 4)).getLsbD (pin % 10 * 3 + i) = v.getLsbD (pin % 10 * 3 + i) := by
  by_cases h : w.plainWords <;> simp [World.wordAt, hw, hv, h, pinBits_field hp hi]

/-- An access that completes went through a live mapping to a whole aligned listed word. -/
theorem World.guard_next {α : Type} {w : World} {m o n : Nat}
    {perform : Host.Outcome α AccessFault AccessRefusal} {a : α}
    (h : w.guard m o n perform = .next a) :
    w.Live m ∧ n = 4 ∧ registerAddress w.periphBase o % 4 = 0 ∧ listed o = true ∧
      perform = .next a := by
  unfold World.guard at h
  split at h
  · cases h
  · cases h
  · cases h
  · rename_i start size hm
    split at h
    · cases h
    · rename_i hs
      obtain rfl := not_not.mp hs
      split at h
      · cases h
      · rename_i hz
        obtain rfl := not_not.mp hz
        split at h
        · cases h
        · rename_i hn
          have hn := not_or.mp hn
          split at h
          · exact ⟨hm, not_not.mp hn.1, not_not.mp hn.2, ‹_›, h⟩
          · cases h

/-- An access through a live mapping to a whole aligned listed word is performed. -/
theorem World.guard_of_live {α : Type} {w : World} {m o : Nat} (hm : w.Live m)
    (ha : registerAddress w.periphBase o % 4 = 0) (hl : listed o = true)
    (perform : Host.Outcome α AccessFault AccessRefusal) : w.guard m o 4 perform = perform := by
  simp [World.guard, hm, ha, hl]

/-- With no live mapping no access has a step. -/
theorem World.guard_of_not_live {α : Type} {w : World} {m : Nat} (hm : ¬w.Live m) (o n : Nat)
    (perform : Host.Outcome α AccessFault AccessRefusal) : ∃ x, w.guard m o n perform = .fault x := by
  unfold World.guard
  split
  · exact ⟨_, rfl⟩
  · exact ⟨_, rfl⟩
  · exact ⟨_, rfl⟩
  · rename_i start size h
    by_cases hs : start = w.periphBase
    · by_cases hz : size = Config.blockSize
      · exact absurd (h.trans (by rw [hs, hz])) hm
      · exact ⟨.wrongSize, by simp [hs, hz]⟩
    · exact ⟨.wrongBase, by simp [hs]⟩

/-- Through a live mapping an access that is not of a whole aligned word is refused. -/
theorem World.guard_of_misaligned {α : Type} {w : World} {m o n : Nat} (hm : w.Live m)
    (h : n ≠ 4 ∨ registerAddress w.periphBase o % 4 ≠ 0)
    (perform : Host.Outcome α AccessFault AccessRefusal) :
    w.guard m o n perform = .refused .narrowOrMisaligned := by
  unfold World.guard
  rw [show w.managers[m]? = _ from hm]
  simp only [ne_eq, not_true_eq_false, if_false]
  exact if_pos h

/-- From an aligned base, every listed word has an aligned address (R40). -/
theorem registerAddress_aligned {start o : Nat} (hs : start % 4 = 0) (hl : listed o = true) :
    registerAddress start o % 4 = 0 := by
  have : ∀ r ∈ addressMap, r.offset % 4 = 0 := by decide
  simp only [listed, List.any_eq_true, beq_iff_eq] at hl
  obtain ⟨r, hr, rfl⟩ := hl
  have := this r hr
  simp only [registerAddress]
  omega

end Sys2Proof.Machine
end

