-- ==== Sys2Proof/Laws/Operands.lean ====
section
/-! SUPPORT. The operand computations with their constants written out (R7, R60, R75, R76), and a
few facts about shifts. -/

namespace Sys2Proof.Machine

theorem offsetF10_eq (b pin : Nat) : offsetF10 b pin = b + pin / 10 * 4 := rfl

theorem offsetP16_eq (b pin : Nat) : offsetP16 b pin = b + pin / 16 * 4 := rfl

theorem offsetB32_eq (b pin : Nat) : offsetB32 b pin = b + if pin > 31 then 4 else 0 := rfl

theorem wordIndex_f10 (pin : Nat) : wordIndex .f10 pin = pin / 10 := rfl

theorem wordIndex_p16 (pin : Nat) : wordIndex .p16 pin = pin / 16 := rfl

theorem wordIndex_b32 (pin : Nat) : wordIndex .b32 pin = if pin > 31 then 1 else 0 := rfl

theorem fieldIndex_eq (pin : Nat) : fieldIndex pin = pin % 10 := rfl

theorem shift_eq (pin : Nat) : shift pin = pin % 10 * 3 := rfl

/-- The largest shift is 27 (R75). -/
theorem shift_le (pin : Nat) : shift pin ≤ 27 := by
  rw [shift_eq]
  omega

/-- `2^s` for a shift of the encoder. -/
theorem two_pow_shift_le (pin : Nat) : 2 ^ shift pin ≤ 2 ^ 27 :=
  Nat.pow_le_pow_right (by omega) (shift_le pin)

/-- Bit `i` of the word `0b111`. -/
theorem seven_getLsbD (i : Nat) : (0b111#32).getLsbD i = decide (i < 3) := by
  rcases Nat.lt_or_ge i 32 with h | h
  · interval_cases i <;> rfl
  · simp [BitVec.getLsbD_of_ge _ _ h]
    omega

/-- `bits` as a number: no set bit is shifted out (R9). -/
theorem packBits_toNat (c : BitVec 3) (pin : Nat) :
    (packBits c pin).toNat = c.toNat * 2 ^ (pin % 10 * 3) := by
  have hc := c.isLt
  have hs := two_pow_shift_le pin
  have hlt : c.toNat * 2 ^ shift pin < 2 ^ 32 := by nlinarith
  simp only [packBits, BitVec.toNat_shiftLeft, BitVec.toNat_setWidth, Nat.shiftLeft_eq]
  rw [Nat.mod_eq_of_lt (a := c.toNat) (by omega), Nat.mod_eq_of_lt hlt, shift_eq]

/-- `clear_mask` as a number (R76). -/
theorem clearMask_toNat (pin : Nat) :
    (clearMask pin).toNat = 0xFFFFFFFF - 7 * 2 ^ (pin % 10 * 3) := by
  have hs := two_pow_shift_le pin
  simp only [clearMask, fieldMask, BitVec.toNat_not, BitVec.toNat_shiftLeft, Nat.shiftLeft_eq]
  simp only [BitVec.reduceToNat]
  rw [Nat.mod_eq_of_lt (by omega), shift_eq]

/-- `clear_mask` bit by bit: zero in the pin's field, one elsewhere (R76). -/
theorem clearMask_getLsbD (pin : Nat) {i : Nat} (hi : i < 32) :
    (clearMask pin).getLsbD i = !(decide (pin % 10 * 3 ≤ i ∧ i ≤ pin % 10 * 3 + 2)) := by
  simp only [clearMask, fieldMask, BitVec.getLsbD_not, BitVec.getLsbD_shiftLeft, hi, seven_getLsbD,
    shift_eq]
  by_cases h1 : i < pin % 10 * 3
  · simp [h1]
  · by_cases h2 : i - pin % 10 * 3 < 3
    · simp [h1, h2]
      omega
    · simp [h1, h2]
      omega

/-- `bits` bit by bit: the code in the pin's field, zero elsewhere (R76). -/
theorem packBits_getLsbD (c : BitVec 3) (pin : Nat) {i : Nat} (hi : i < 32) :
    (packBits c pin).getLsbD i = (decide (pin % 10 * 3 ≤ i) && c.getLsbD (i - pin % 10 * 3)) := by
  simp only [packBits, BitVec.getLsbD_shiftLeft, BitVec.getLsbD_setWidth, hi, shift_eq]
  by_cases h1 : i < pin % 10 * 3
  · simp [h1]
  · simp [h1, Nat.not_lt.mp h1]
    intro
    omega

end Sys2Proof.Machine
end

