-- ==== Sys2Proof/Laws/State.lean ====
section
/-! SUPPORT. The fields after each update of State, so that no proof unfolds a record update. -/

namespace Sys2Proof.Machine

section
variable (s : State) (r : Result) (p : Request) (rest : List Request) (q : Nat) (ws : List ReqWord)

@[simp] theorem State.answer_queue : (s.answer r).queue = s.queue := rfl
@[simp] theorem State.answer_request : (s.answer r).request = s.request := rfl
@[simp] theorem State.answer_response : (s.answer r).response = some r := rfl
@[simp] theorem State.answer_log : (s.answer r).log = s.log := rfl
@[simp] theorem State.answer_draws : (s.answer r).draws = s.draws + 1 := rfl

@[simp] theorem State.accept_queue : (s.accept p rest).queue = rest := rfl
@[simp] theorem State.accept_request : (s.accept p rest).request = some p := rfl
@[simp] theorem State.accept_response : (s.accept p rest).response = s.response := rfl
@[simp] theorem State.accept_log : (s.accept p rest).log = s.log := rfl
@[simp] theorem State.accept_draws : (s.accept p rest).draws = s.draws := rfl

@[simp] theorem State.present_queue :
    (s.present q ws).queue = s.queue ++ ws.map fun w => ⟨q, w⟩ := rfl
@[simp] theorem State.present_request : (s.present q ws).request = s.request := rfl
@[simp] theorem State.present_response : (s.present q ws).response = s.response := rfl
@[simp] theorem State.present_log : (s.present q ws).log = s.log := rfl
@[simp] theorem State.present_draws : (s.present q ws).draws = s.draws := rfl

/-- What delivering the answer of an accepted request leaves, field by field. -/
theorem State.deliver_accept_answer : ((s.accept p rest).answer r).deliver =
    { queue := rest, request := some p, response := some r,
      log := s.log ++ [⟨p.requester, p.word, r⟩], draws := s.draws + 1 } := rfl

end

end Sys2Proof.Machine
end

