-- ==== Sys2Proof/Laws/Ops.lean ====
section
/-! SUPPORT. One lemma per shared operation that says all it can do, and from them what `exec`,
`execWord`, `serve` and `step` can do. Callers cite these and unfold nothing. -/

namespace Sys2Proof.Machine

theorem takeFault_eq (c : Cause) (s : State) : takeFault c s = .next (s.answer (.fault c)) := rfl

theorem giveOffset_eq (o : Nat) (s : State) : giveOffset o s = .next (s.answer (.offset o)) := rfl

theorem givePacked_eq (b m : Word32) (s : State) :
    givePacked b m s = .next (s.answer (.packed b m)) := rfl

theorem withPin_of_lt {pin : Nat} (h : pin < 58)
    (perform : State → Host.Outcome State Fault Refusal) (s : State) :
    withPin pin perform s = perform s := by
  simp [withPin, Nat.not_le.mpr h]

theorem withPin_of_ge {pin : Nat} (h : 58 ≤ pin)
    (perform : State → Host.Outcome State Fault Refusal) (s : State) :
    withPin pin perform s = .next (s.answer (.fault .pinDomain)) := by
  simp [withPin, h, takeFault_eq]

/-- An operation under the pin check always answers, if its own part does. -/
theorem withPin_answers {pin : Nat} {perform : State → Host.Outcome State Fault Refusal} {s : State}
    (h : ∃ r, perform s = .next (s.answer r)) : ∃ r, withPin pin perform s = .next (s.answer r) := by
  by_cases hp : pin < 58
  · rwa [withPin_of_lt hp]
  · exact ⟨_, withPin_of_ge (Nat.not_lt.mp hp) _ _⟩

/-- All an operation can do: answer, and nothing else (R15). -/
theorem exec_answers (i : Instr) (s : State) : ∃ r, exec i s = .next (s.answer r) := by
  cases i <;> exact withPin_answers ⟨_, rfl⟩

/-- All a request word can do (R52). -/
theorem execWord_answers (w : ReqWord) (s : State) : ∃ r, execWord w s = .next (s.answer r) := by
  unfold execWord
  split
  · exact exec_answers _ _
  · exact ⟨_, rfl⟩

/-- All that serving a request can do. -/
theorem serve_next (r : Request) (rest : List Request) (s : State) : ∃ x,
    execWord r.word (s.accept r rest) = .next ((s.accept r rest).answer x) ∧
    serve r rest s = .next
      { queue := rest, request := some r, response := some x,
        log := s.log ++ [⟨r.requester, r.word, x⟩], draws := s.draws + 1 } := by
  obtain ⟨x, hx⟩ := execWord_answers r.word (s.accept r rest)
  exact ⟨x, hx, by rw [serve, hx]; exact congrArg _ (State.deliver_accept_answer ..)⟩

theorem step_of_live_nil {s : State} (h : s.live = []) : step s = .fault (idleReason s) := by
  simp [step, h]

theorem step_of_live_cons {s : State} {r : Request} {rest : List Request}
    (h : s.live = r :: rest) : step s = serve r rest s := by
  simp [step, h]

/-- All a step that answers can have done: it served the first request that may be presented. -/
theorem step_next {s t : State} (h : step s = .next t) : ∃ r rest x,
    s.live = r :: rest ∧
    execWord r.word (s.accept r rest) = .next ((s.accept r rest).answer x) ∧
    t = { queue := rest, request := some r, response := some x,
          log := s.log ++ [⟨r.requester, r.word, x⟩], draws := s.draws + 1 } := by
  cases hl : s.live with
  | nil => simp [step_of_live_nil hl] at h
  | cons r rest =>
    obtain ⟨x, hx, hs⟩ := serve_next r rest s
    rw [step_of_live_cons hl, hs] at h
    cases h
    exact ⟨r, rest, x, rfl, hx, rfl⟩

/-- A request that may be presented is waiting, and its requester's run has not ended. -/
theorem State.mem_live {s : State} {r : Request} :
    r ∈ s.live ↔ r ∈ s.queue ∧ s.ended r.requester = false := by
  simp [State.live]

/-- A run has ended after an answer if it had, or if the answer is its fault. -/
theorem State.ended_append {s : State} {a : Answer} {t : State} (h : t.log = s.log ++ [a]) (q : Nat) :
    t.ended q = (s.ended q || (a.requester == q && a.result.isFault)) := by
  simp [State.ended, h]

/-- A fresh requester is above every number in the state. -/
theorem lt_foldr_of_mem {q : Nat} {l : List Nat} (h : q ∈ l) :
    q < l.foldr (fun q n => max (q + 1) n) 0 := by
  induction l with
  | nil => cases h
  | cons a l ih =>
    rcases List.mem_cons.mp h with rfl | h
    · exact lt_of_lt_of_le (Nat.lt_succ_self q) (le_max_left _ _)
    · exact lt_of_lt_of_le (ih h) (le_max_right _ _)

/-- A fresh requester's run has not ended. -/
theorem State.ended_freshRequester (s : State) : s.ended s.freshRequester = false := by
  rw [Bool.eq_false_iff]
  intro h
  obtain ⟨a, ha, hq⟩ := List.any_eq_true.mp h
  have hlt : a.requester < s.freshRequester :=
    lt_foldr_of_mem (List.mem_append_right _ (List.mem_map_of_mem ha))
  have heq : a.requester = s.freshRequester := by
    simp only [Bool.and_eq_true, beq_iff_eq] at hq
    exact hq.1
  omega

end Sys2Proof.Machine
end

