-- ==== Sys2Proof/Laws/PerInstr.lean ====
section
/-! SUPPORT. A law of the syntax, constructor by constructor: an operation's canonical word lies in
its row of the opcode map (R56). -/

namespace Sys2Proof.Laws.EncodesItsRow

/-- Whatever its pin, an operation's word matches its row's pattern under its row's mask (R56). -/
def Statement (i : Instr) : Prop := encode i &&& i.row.mask = i.row.pattern

/-- The word of an `OFFSET` request of kind code `c` has that code in its five high bits (R47). -/
theorem offset_word (c : BitVec 4) (f : BitVec 3) (p : BitVec 8) :
    InPorts.toWord ⟨0#1, c, f, p⟩ &&& 0xF800#16 = BitVec.ofNat 16 (c.toNat * 0x0800) := by
  rw [word_and_F800_eq _ _ (by omega), InPorts.toWord_toNat]
  have := f.isLt
  have := p.isLt
  simp only [BitVec.toNat_ofNat]
  omega

theorem offsetFsel (pin : Nat) : Statement (.offsetFsel pin) := offset_word _ _ _

theorem offsetSet (pin : Nat) : Statement (.offsetSet pin) := offset_word _ _ _

theorem offsetClr (pin : Nat) : Statement (.offsetClr pin) := offset_word _ _ _

theorem offsetLev (pin : Nat) : Statement (.offsetLev pin) := offset_word _ _ _

theorem offsetEds (pin : Nat) : Statement (.offsetEds pin) := offset_word _ _ _

theorem offsetRen (pin : Nat) : Statement (.offsetRen pin) := offset_word _ _ _

theorem offsetFen (pin : Nat) : Statement (.offsetFen pin) := offset_word _ _ _

theorem offsetHen (pin : Nat) : Statement (.offsetHen pin) := offset_word _ _ _

theorem offsetLen (pin : Nat) : Statement (.offsetLen pin) := offset_word _ _ _

theorem offsetAren (pin : Nat) : Statement (.offsetAren pin) := offset_word _ _ _

theorem offsetAfen (pin : Nat) : Statement (.offsetAfen pin) := offset_word _ _ _

theorem offsetPud (pin : Nat) : Statement (.offsetPud pin) := offset_word _ _ _

theorem pack (function : PinFunction) (pin : Nat) : Statement (.pack function pin) := by
  refine (word_and_8000_eq _).mpr ?_
  rw [encode, InPorts.toWord_toNat]
  simp only [Instr.ports, BitVec.toNat_ofNat]
  omega

end Sys2Proof.Laws.EncodesItsRow
end

