-- ==== Sys2Proof/Laws/Run.lean ====
section
/-! SUPPORT. Runs of many steps: what the first step of a run did, and the induction packaged once. -/

namespace Sys2Proof.Machine

theorem run_zero (s : State) : Host.Core.run Sys2Proof.core 0 s = .next s := rfl

section
variable {M : Host.Core} {s t u : M.State} {k : Nat}

/-- Of any machine: a run that begins with a step is the run from where that step leads. -/
theorem coreRun_of_step (h : M.step s = .next t) : M.run (k + 1) s = M.run k t := by
  simp only [Host.Core.run, h]

/-- Of any machine: a run of several steps that answers began with a step that answered. -/
theorem coreRun_next (h : M.run (k + 1) s = .next u) : ∃ t, M.step s = .next t ∧ M.run k t = .next u := by
  simp only [Host.Core.run] at h
  split at h
  · exact ⟨_, ‹_›, h⟩
  · cases h
  · cases h

end

/-- A run that begins with a step is the run from where that step leads. -/
theorem run_succ_of_step {s t : State} (h : step s = .next t) (k : Nat) :
    Host.Core.run Sys2Proof.core (k + 1) s = Host.Core.run Sys2Proof.core k t :=
  coreRun_of_step (M := Sys2Proof.core) h

/-- A run of several steps that answers began with a step that answered. -/
theorem run_succ_next {k : Nat} {s u : State}
    (h : Host.Core.run Sys2Proof.core (k + 1) s = .next u) :
    ∃ t, step s = .next t ∧ Host.Core.run Sys2Proof.core k t = .next u :=
  coreRun_next (M := Sys2Proof.core) h

/-- What every step keeps, every run keeps. -/
theorem run_keeps {Kept : State → Prop} (step_keeps : ∀ s t, Kept s → step s = .next t → Kept t) :
    ∀ (k : Nat) (s t : State), Kept s → Host.Core.run Sys2Proof.core k s = .next t → Kept t
  | 0, s, t, hs, h => by
    rw [run_zero] at h
    cases h
    exact hs
  | k + 1, s, t, hs, h => by
    obtain ⟨u, hu, h⟩ := run_succ_next h
    exact run_keeps step_keeps k u t (step_keeps s u hs hu) h

end Sys2Proof.Machine
end

