-- ==== Sys2Proof/Tests/Slice0.lean ====
section
/-! SUPPORT. Small tests, each expected value from the spec (95_test_vectors.md unless another rule is
named), and for each statement with hypotheses a witness that meets them. -/

open Sys2Proof Sys2Proof.Machine

namespace Sys2Proof.Tests

/-! ## The well-formedness check refuses an ill-formed term -/

theorem test_wellFormed_refuses_pin_256 : ¬(Instr.offsetFsel 256).WellFormed := by decide
theorem test_wellFormed_refuses_pack_pin_300 : ¬(Instr.pack .output 300).WellFormed := by decide
theorem test_wellFormed_admits_pin_255 : (Instr.pack .alt3 255).WellFormed := by decide

/-! ## Decoding: words written out from R47 and R56, one for every constructor -/

/-- What a word decodes to, if anything. -/
def decoded (w : ReqWord) : Option Instr := (decode w).toOption

theorem test_decode_fsel : decoded 0b0000000000101101#16 = some (.offsetFsel 45) := by decide
theorem test_decode_set : decoded 0b0000100000101101#16 = some (.offsetSet 45) := by decide
theorem test_decode_clr : decoded 0b0001000000010001#16 = some (.offsetClr 17) := by decide
theorem test_decode_lev : decoded 0b0001100000101000#16 = some (.offsetLev 40) := by decide
theorem test_decode_eds : decoded 0b0010000000000100#16 = some (.offsetEds 4) := by decide
theorem test_decode_ren : decoded 0b0010100000100001#16 = some (.offsetRen 33) := by decide
theorem test_decode_fen : decoded 0b0011000000011111#16 = some (.offsetFen 31) := by decide
theorem test_decode_hen : decoded 0b0011100000100000#16 = some (.offsetHen 32) := by decide
theorem test_decode_len : decoded 0b0100000000000000#16 = some (.offsetLen 0) := by decide
theorem test_decode_aren : decoded 0b0100100000111001#16 = some (.offsetAren 57) := by decide
theorem test_decode_afen : decoded 0b0101000000001100#16 = some (.offsetAfen 12) := by decide
theorem test_decode_pud : decoded 0b0101100000011000#16 = some (.offsetPud 24) := by decide
theorem test_decode_pack : decoded 0b1000000100100000#16 = some (.pack .output 32) := by decide
theorem test_decode_ignores_func : decoded 0b0000011100101101#16 = some (.offsetFsel 45) := by decide
theorem test_decode_ignores_kind : decoded 0b1111100100100000#16 = some (.pack .output 32) := by decide
theorem test_decode_refuses_kind_12 : decoded 0x6000#16 = none := by decide
theorem test_decode_refuses_kind_15 : decoded 0x7FFF#16 = none := by decide
theorem test_encode_pack : encode (.pack .alt1 45) = 0x852D#16 := by decide
theorem test_encode_afen : encode (.offsetAfen 255) = 0x50FF#16 := by decide
theorem test_decodeTableWord_pud : decodeTableWord 16 0x5F18 = some (.offsetPud 24) := by decide

/-! ## Results, on the word, in the reset state -/

/-- The result of a request word. -/
def answerOf (w : ReqWord) : Option Result :=
  match execWord w State.reset with
  | .next s => s.response
  | .fault _ => none
  | .refused _ => none

theorem test_fsel_31 : answerOf 0x001F#16 = some (.offset 0x0C) := by decide
theorem test_fsel_58 : answerOf 0x003A#16 = some (.fault .pinDomain) := by decide
theorem test_set_45 : answerOf 0x082D#16 = some (.offset 0x20) := by decide
theorem test_set_63 : answerOf 0x083F#16 = some (.fault .pinDomain) := by decide
theorem test_clr_31 : answerOf 0x101F#16 = some (.offset 0x28) := by decide
theorem test_lev_32 : answerOf 0x1820#16 = some (.offset 0x38) := by decide
theorem test_lev_128 : answerOf 0x1880#16 = some (.fault .pinDomain) := by decide
theorem test_eds_32 : answerOf 0x2020#16 = some (.offset 0x44) := by decide
theorem test_ren_33 : answerOf 0x2821#16 = some (.offset 0x50) := by decide
theorem test_fen_57 : answerOf 0x3039#16 = some (.offset 0x5C) := by decide
theorem test_hen_31 : answerOf 0x381F#16 = some (.offset 0x64) := by decide
theorem test_len_32 : answerOf 0x4020#16 = some (.offset 0x74) := by decide
theorem test_aren_57 : answerOf 0x4839#16 = some (.offset 0x80) := by decide
theorem test_afen_12 : answerOf 0x500C#16 = some (.offset 0x88) := by decide
theorem test_pud_15 : answerOf 0x580F#16 = some (.offset 0xE4) := by decide
theorem test_pud_64 : answerOf 0x5840#16 = some (.fault .pinDomain) := by decide
theorem test_pack_alt5_23 : answerOf 0x8217#16 = some (.packed 0x00000400 0xFFFFF1FF) := by decide
theorem test_pack_alt3_9 : answerOf 0x8709#16 = some (.packed 0x38000000 0xC7FFFFFF) := by decide
theorem test_illegal_beats_pin : answerOf 0x78FF#16 = some (.fault .illegalKind) := by decide

/-! ## Ports, steps, the assembler, the environment layer -/

/-- A state in which requester 7 has word `w` waiting before a second request of its own and one of
requester 8. -/
def waiting (w : ReqWord) : State := (State.reset.present 7 [w, 0x1838#16]).present 8 [0x1800#16]

/-- The state a step leads to. -/
def stepped (s : State) : State :=
  match step s with
  | .next t => t
  | .fault _ => s
  | .refused _ => s

/-- Program 3, step 3: the fault ends requester 7's run; requester 8 is served next. -/
theorem test_fault_ends_own_run_only :
    (stepped (waiting 0x183A#16)).live = [⟨8, 0x1800#16⟩] := by decide
theorem test_step_logs_the_answer :
    (stepped (waiting 0x183A#16)).log = [⟨7, 0x183A#16, .fault .pinDomain⟩] := by decide
theorem test_valid_request_keeps_the_run :
    (stepped (waiting 0x1839#16)).live = [⟨7, 0x1838#16⟩, ⟨8, 0x1800#16⟩] := by decide
theorem test_ports_of_a_fault : (stepped (waiting 0x60FF#16)).outputs.cause = 2#2 := by decide
theorem test_ports_of_an_offset : (stepped (waiting 0x1839#16)).outputs.offset = 0x38#8 := by decide
theorem test_reset_has_no_step : step State.reset = .fault .noRequest := rfl

theorem test_assemble_fsel : assembleLine "OFFSET.FSEL 45 ; word 4" = some 0x002D#16 := by decide
theorem test_assemble_pack : assembleLine "PACK Alt0, 14" = some 0x840E#16 := by decide
theorem test_assemble_gpset : assembleLine "OFFSET.GPSET 45" = some 0x082D#16 := by decide
theorem test_assemble_call : assembleLine "pack(Output, 32)" = some 0x8120#16 := by decide
theorem test_assemble_clear_mask : assembleLine "clear_mask(5)" = some 0x8005#16 := by decide
theorem test_assemble_refuses_pin_256 : assembleLine "OFFSET.LEV 256" = none := by decide
theorem test_text_reads_back :
    readLine (AsmLine.text (.callOffset .pullUpDown 24)) = some (.callOffset .pullUpDown 24) := by
  decide

theorem test_kinds_and_functions_are_12_and_8 :
    kindsInOrder.length = 12 ∧ functionsInOrder.length = 8 := by decide

/-- Program 1's image: one live mapping, the word at `0x10` holding `0x00024000`. -/
def image : World where
  periphBase := Config.periphBase
  managers :=
    [.mapped Config.periphBase Config.blockSize, .mapped Config.periphBase Config.blockSize]
  plainWords := true
  words := [(0x10, 0x00024000#32)]
  draws := 0

/-- The function-select words after `set_function`. -/
def wordsAfter (w : World) (f : PinFunction) (pin : Nat) : List (Nat × Word32) :=
  match w.setFunction 0 f pin with
  | .next t => t.words
  | .fault _ => []
  | .refused _ => []

theorem test_program_1_image : wordsAfter image .output 45 = [(0x10, 0x0000C000#32)] := by decide
theorem test_program_1_bytes :
    [0, 1, 2, 3].map (wordByte 0x0000C000#32 ·) = [0x00#8, 0xC0#8, 0x00#8, 0x00#8] := by decide

/-! ## Witnesses: each statement's hypotheses are met together, at the ends of their ranges -/

theorem witness_DecodeEncodeRoundTrip : (Instr.offsetPud 255).WellFormed := by decide
theorem witness_EncodeOfDecodeIsCanonicalWord : decode 0x5F18#16 = .ok (.offsetPud 24) := rfl
theorem witness_DecodeFollowsTheFields_reserved :
    (⟨0#1, 12#4, 0#3, 255#8⟩ : InPorts).op = 0#1 ∧ 12 ≤ (12#4).toNat := by decide
theorem witness_DecodeFollowsTheFields_offset :
    (⟨0#1, 11#4, 7#3, 0#8⟩ : InPorts).op = 0#1 ∧ (11#4).toNat < 12 := by decide
theorem witness_DecodeFollowsTheFields_pack : (⟨1#1, 15#4, 7#3, 57#8⟩ : InPorts).op = 1#1 := by decide
theorem witness_IgnoredFieldsChangeNothing_func : (⟨0#1, 12#4, 0#3, 57#8⟩ : InPorts).op = 0#1 := by
  decide
theorem witness_IgnoredFieldsChangeNothing_kind : (⟨1#1, 0#4, 0#3, 57#8⟩ : InPorts).op = 1#1 := by
  decide
theorem witness_IgnoredFieldsChangeNothing_canonical :
    (Instr.offsetFsel 0).kind?.isSome = true ∧ (Instr.pack .input 0).kind? = none := by decide
theorem witness_ReservedKindWordsAreIllegal :
    0x6000#16 &&& 0xE000#16 = 0x6000#16 ∧ 0x7FFF#16 &&& 0xE000#16 = 0x6000#16 := by decide
theorem witness_OpcodeMapPartitionsTheWords_ok : decode 0x4839#16 = .ok (.offsetAren 57) := rfl
theorem witness_OpcodeMapPartitionsTheWords_error : decode 0x6000#16 = .error (.illegalKind 12) := rfl
theorem witness_KindCodesAscendWithTheirBases :
    (RegisterKind.pullUpDown, 11, 0xE4) ∈ kindRows ∧ 255 < 256 ∧ 12 ≤ (12#4).toNat := by decide
theorem witness_OffsetFselAnswersItsWord :
    0x07FF#16 &&& 0xF800#16 = 0x0000#16 ∧ 57 < 58 ∧ 58 ≤ 58 := by decide
theorem witness_OffsetBankKindsAnswerTheirWord :
    (Instr.offsetAfen, 0x88, 0x5000#16) ∈ bankRows ∧
      0x57FF#16 &&& 0xF800#16 = 0x5000#16 ∧ 57 < 58 ∧ 58 ≤ 58 :=
  ⟨by simp [bankRows], by decide⟩
theorem witness_OffsetPudAnswersItsWord :
    0x5FFF#16 &&& 0xF800#16 = 0x5800#16 ∧ 57 < 58 ∧ 58 ≤ 58 := by decide
theorem witness_PackAnswersBitsAndMask :
    0xFFFF#16 &&& 0x8000#16 = 0x8000#16 ∧ 57 < 58 ∧ 58 ≤ 58 := by decide
theorem witness_EveryOperationFaultsOutsidePinDomain : 58 ≤ (Instr.pack .input 58).pin := by decide
theorem witness_FaultsAndTheirPriority_illegal :
    (⟨0#1, 12#4, 0#3, 255#8⟩ : InPorts).op = 0#1 ∧ 12 ≤ (12#4).toNat := by decide
theorem witness_FaultsAndTheirPriority_pin :
    ((⟨1#1, 15#4, 0#3, 58#8⟩ : InPorts).op = 1#1 ∨ (15#4).toNat < 12) ∧ 58 ≤ (58#8).toNat := by decide
theorem witness_FaultsAndTheirPriority_none :
    ((⟨0#1, 11#4, 0#3, 57#8⟩ : InPorts).op = 1#1 ∨ (11#4).toNat < 12) ∧ (57#8).toNat < 58 := by decide
theorem witness_ResultsHaveTheirType : decode 0x7839#16 = .error (.illegalKind 15) := rfl
theorem witness_OffsetIsBasePlusWordIndex :
    57 < 58 ∧ classOf .functionSelect = .f10 ∧ classOf .pullUpDown = .p16 ∧
      classOf .asyncFalling = .b32 := by decide
theorem witness_OffsetsAreAlignedWordsOfTheBlock :
    exec (.offsetPud 57) State.reset = .next (State.reset.answer (.offset 0xF0)) ∧
      (State.reset.answer (.offset 0xF0)).response = some (.offset 0xF0) := ⟨rfl, rfl⟩
theorem witness_AddressMapIsExact : 57 < 58 := by decide
theorem witness_KindsNeverShareAnOffset :
    exec (.offset .set 57) State.reset = .next (State.reset.answer (.offset 0x20)) ∧
      exec (.offset .set 32) State.reset = .next (State.reset.answer (.offset 0x20)) := ⟨rfl, rfl⟩
theorem witness_OffsetsRiseWithThePin : 31 ≤ 57 ∧ 57 < 58 := by decide
theorem witness_ClearMaskIgnoresTheFunction : 57 < 58 := by decide
theorem witness_PackWordsStayInTheirField : 49 < 58 ∧ 31 < 32 := by decide
theorem witness_FieldUpdateLaws :
    49 < 58 ∧ 31 < 32 ∧ (49 % 10 * 3 + 2 < 31) ∧ 48 < 58 ∧ 48 % 10 ≠ 49 % 10 := by decide
theorem witness_WordAndFieldIdentifyThePin_same : 2 < 58 ∧ 52 < 58 ∧ 2 % 10 = 52 % 10 := by decide
theorem witness_WordAndFieldIdentifyThePin_pin :
    exec (.offsetFsel 57) State.reset = .next (State.reset.answer (.offset 0x14)) ∧
      exec (.pack .output 57) State.reset =
        .next (State.reset.answer (.packed 0x00200000#32 0xFF1FFFFF#32)) := ⟨rfl, rfl⟩
theorem witness_AliasesExpandToOperations : 57 < 58 := by decide
theorem witness_TypedRequestsMeetTheContracts : (0 : Int) ≤ 57 ∧ (0 : Int) ≤ 1000 := by decide
theorem witness_OutputPortsCarryTheResult :
    (stepped (waiting 0x5839#16)).request = some ⟨7, 0x5839#16⟩ ∧
      (stepped (waiting 0x5839#16)).response = some (.offset 0xF0) ∧
      (stepped (waiting 0x8739#16)).response = some (.packed 0x00E00000 0xFF1FFFFF) ∧
      (stepped (waiting 0x583A#16)).response = some (.fault .pinDomain) := by decide
theorem witness_FaultIsOnlyItsResult :
    ((waiting 0#16).accept ⟨7, 0x003A#16⟩ []).request = some ⟨7, 0x003A#16⟩ ∧
      execWord 0x003A#16 ((waiting 0#16).accept ⟨7, 0x003A#16⟩ []) =
        .next (((waiting 0#16).accept ⟨7, 0x003A#16⟩ []).answer (.fault .pinDomain)) := ⟨rfl, rfl⟩
theorem witness_StepRunsTheDecodedOperation :
    (waiting 0x1839#16).queue.filter (fun r => !(waiting 0x1839#16).ended r.requester) =
      ⟨7, 0x1839#16⟩ :: [⟨7, 0x1838#16⟩, ⟨8, 0x1800#16⟩] ∧
      decode 0x1839#16 = .ok (.offsetLev 57) := ⟨rfl, rfl⟩
theorem witness_StepAnswersAnIllegalWord :
    (waiting 0x60FF#16).queue.filter (fun r => !(waiting 0x60FF#16).ended r.requester) =
      ⟨7, 0x60FF#16⟩ :: [⟨7, 0x1838#16⟩, ⟨8, 0x1800#16⟩] ∧
      decode 0x60FF#16 = .error (.illegalKind 12) := ⟨rfl, rfl⟩
theorem witness_StepAnswersOneRequest :
    step (waiting 0x1839#16) = .next (stepped (waiting 0x1839#16)) := rfl
/-- The invariant at reset, shown here as a witness: reset with requests waiting has it too. -/
theorem witness_StepKeepsTheInvariant :
    (waiting 0x1839#16).Inv ∧ step (waiting 0x1839#16) = .next (stepped (waiting 0x1839#16)) :=
  ⟨⟨by decide, by decide, by decide⟩, rfl⟩
theorem witness_FaultEndsItsRun_fault :
    step (waiting 0x183A#16) = .next (stepped (waiting 0x183A#16)) ∧
      (stepped (waiting 0x183A#16)).request = some ⟨7, 0x183A#16⟩ ∧
      (stepped (waiting 0x183A#16)).response = some (.fault .pinDomain) := ⟨rfl, rfl, rfl⟩
theorem witness_FaultEndsItsRun_ended :
    (stepped (waiting 0x183A#16)).ended 7 = true ∧
      Host.Core.run Sys2Proof.core 1 (stepped (waiting 0x183A#16)) =
        .next (stepped (stepped (waiting 0x183A#16))) := ⟨rfl, rfl⟩
theorem witness_OwnRequestsDecideEveryRun :
    Host.Core.run Sys2Proof.core 2 (waiting 0x183A#16) =
        .next (stepped (stepped (waiting 0x183A#16))) ∧
      (stepped (stepped (waiting 0x183A#16))).live = [] := ⟨rfl, rfl⟩
theorem witness_SetFunctionChangesOnlyItsField :
    57 < 58 ∧ image.Live 1 ∧ image.periphBase % 4 = 0 := by decide
theorem witness_InvalidPinReachesNoRegister : 58 ≤ 58 := by decide
theorem witness_NoAccessOutsideALiveMapping :
    ¬image.Live 2 ∧ ¬({ image with managers := [.released] } : World).Live 0 ∧
      ¬({ image with managers := [.mapped (Config.periphBase + 4) 256] } : World).Live 0 ∧
      ¬({ image with managers := [.mapped Config.periphBase 255] } : World).Live 0 := by decide
theorem witness_MisalignedAccessIsRefused :
    image.Live 0 ∧ 2 ≠ 4 ∧ registerAddress image.periphBase 0x11 % 4 ≠ 0 ∧
      ({ image with periphBase := 2, managers := [.mapped 2 256] } : World).Live 0 ∧
      registerAddress 2 0x10 % 4 ≠ 0 := by decide
/-- R111: a mapping of another size is no live mapping. -/
theorem test_other_size_faults :
    ({ image with managers := [.mapped Config.periphBase 128] } : World).memWrite 0 0x10 4 0#32 =
      .fault .wrongSize := rfl
theorem witness_ManagerLifeCycle_construct :
    Manager.unopened.construct ⟨.resolved 0xFE200000, none, none, ""⟩ = some (.mapped 0xFE200000 256, none) ∧
      Manager.unopened.construct ⟨.resolved 0xFE200000, some 13, none, "device"⟩ =
        some (.unopened, some (.deviceOpen "device" 13)) := ⟨rfl, rfl⟩
/-- R108: the form "<message>: <OS error description>", or just "<message>". -/
theorem test_error_display :
    (EnvError.deviceOpen "device" 13).display (fun _ => "Permission denied") =
        "device: Permission denied" ∧
      (EnvError.unsupportedHardware "board" none).display (fun _ => "Permission denied") = "board" := by
  decide
theorem witness_ManagerLifeCycle_teardown :
    (Manager.mapped 0xFE200000 256).teardown (some 22) = some .released := rfl
theorem witness_ManagerLifeCycle_access :
    image.memWrite 1 0x10 4 7#32 = .next { image with words := [(0x10, 7#32)] } := rfl
theorem witness_BytesOfAWordAreLittleEndian : 3 < 4 ∧ 7 < 8 := by decide
theorem witness_LateWriteLosesTheOtherUpdate :
    44 < 58 ∧ 45 < 58 ∧ 44 / 10 = 45 / 10 ∧ 44 % 10 ≠ 45 % 10 ∧
      image.Live 0 ∧ image.Live 1 ∧ image.periphBase % 4 = 0 ∧
      lookupWord (44 / 10 * 4) image.words = some 0x00024000#32 := by decide
theorem witness_TwoMappingsSeeTheSameRegisters :
    57 < 58 ∧ image.Live 0 ∧ image.Live 1 ∧ image.periphBase % 4 = 0 := by decide
theorem witness_AccessesKeepTheWordsCanonical :
    image.wf ∧ image.memWrite 0 0x10 4 7#32 = .next { image with words := [(0x10, 7#32)] } :=
  ⟨by decide, rfl⟩

end Sys2Proof.Tests
end

section
/-! SUPPORT. What `exec` answers in the two families and to an illegal word, and the offsets it can
answer; from them, the result type of every request (R11). -/

namespace Sys2Proof.Machine

/-- R62 is R60 for class F10. -/
theorem offsetF10_eq_wordIndex (b pin : Nat) : offsetF10 b pin = b + 4 * wordIndex .f10 pin := by
  rw [offsetF10_eq, wordIndex_f10, Nat.mul_comm]

/-- R73 is R60 for class P16. -/
theorem offsetP16_eq_wordIndex (b pin : Nat) : offsetP16 b pin = b + 4 * wordIndex .p16 pin := by
  rw [offsetP16_eq, wordIndex_p16, Nat.mul_comm]

/-- R63 to R72, in the comparison form, are R60 for class B32. -/
theorem offsetB32_eq_wordIndex (b pin : Nat) : offsetB32 b pin = b + 4 * wordIndex .b32 pin := by
  rw [offsetB32_eq, wordIndex_b32]
  split <;> rfl

/-- The twelve `OFFSET` meanings are one: the pin check, then the formula of R60. -/
theorem exec_offset (k : RegisterKind) (pin : Nat) (s : State) :
    exec (Instr.offset k pin) s =
      withPin pin (giveOffset (base k + 4 * wordIndex (classOf k) pin)) s := by
  have same_formula {o o' : Nat} (h : o = o') :
      withPin pin (giveOffset o) s = withPin pin (giveOffset o') s := by rw [h]
  cases k with
  | functionSelect => exact same_formula (offsetF10_eq_wordIndex _ pin)
  | pullUpDown => exact same_formula (offsetP16_eq_wordIndex _ pin)
  | _ => exact same_formula (offsetB32_eq_wordIndex _ pin)

theorem exec_offset_of_lt {pin : Nat} (h : pin < 58) (k : RegisterKind) (s : State) :
    exec (Instr.offset k pin) s =
      .next (s.answer (.offset (base k + 4 * wordIndex (classOf k) pin))) := by
  rw [exec_offset, withPin_of_lt h, giveOffset_eq]

theorem exec_offset_of_ge {pin : Nat} (h : 58 ≤ pin) (k : RegisterKind) (s : State) :
    exec (Instr.offset k pin) s = .next (s.answer (.fault .pinDomain)) := by
  rw [exec_offset, withPin_of_ge h]

/-- R76 as an equation of `exec`. -/
theorem exec_pack (f : PinFunction) (pin : Nat) (s : State) :
    exec (.pack f pin) s = withPin pin (givePacked (packBits f.code pin) (clearMask pin)) s := rfl

theorem exec_pack_of_lt {pin : Nat} (h : pin < 58) (f : PinFunction) (s : State) :
    exec (.pack f pin) s = .next (s.answer (.packed (packBits f.code pin) (clearMask pin))) := by
  rw [exec_pack, withPin_of_lt h, givePacked_eq]

theorem exec_pack_of_ge {pin : Nat} (h : 58 ≤ pin) (f : PinFunction) (s : State) :
    exec (.pack f pin) s = .next (s.answer (.fault .pinDomain)) := by
  rw [exec_pack, withPin_of_ge h]

theorem execWord_of_decode_ok {w : ReqWord} {i : Instr} (h : decode w = .ok i) (s : State) :
    execWord w s = exec i s := by
  simp [execWord, h]

theorem execWord_of_decode_error {w : ReqWord} {e : DecodeReject} (h : decode w = .error e)
    (s : State) : execWord w s = .next (s.answer (.fault .illegalKind)) := by
  simp [execWord, h, execIllegal, takeFault_eq]

/-- Every base is a whole word of the block (R19, R35). -/
theorem base_mod_four (k : RegisterKind) : base k % 4 = 0 := by
  cases k <;> rfl

/-- Every offset is a multiple of the stride (R35, R61). -/
theorem offset_mod_four (k : RegisterKind) (pin : Nat) :
    (base k + 4 * wordIndex (classOf k) pin) % 4 = 0 := by
  rw [Nat.add_mul_mod_self_left, base_mod_four]

/-- The last word a valid pin has in each class: 5, 3 and 1 (R60). -/
theorem wordIndex_le {pin : Nat} (h : pin < 58) : ∀ c : AddressClass,
    wordIndex c pin ≤ match c with | .f10 => 5 | .p16 => 3 | .b32 => 1
  | .f10 => by simp only [wordIndex_f10]; omega
  | .p16 => by simp only [wordIndex_p16]; omega
  | .b32 => by simp only [wordIndex_b32]; split <;> omega

/-- The last word of every kind is at `0xF0` or below (R61). -/
theorem offset_le {pin : Nat} (h : pin < 58) (k : RegisterKind) :
    base k + 4 * wordIndex (classOf k) pin ≤ 0xF0 := by
  have hw := wordIndex_le h (classOf k)
  cases k <;> simp only [base, classOf] at hw ⊢ <;> omega

end Sys2Proof.Machine

open Sys2Proof Sys2Proof.Machine

/-- Settles O17: each family answers by its valid-pin equation below pin 58 and with `PIN_DOMAIN` from
58 on; an illegal word answers by R86. -/
theorem resultsHaveTheirType : Obligations.ResultsHaveTheirType := by
  refine ⟨fun k pin s => ?_, fun f pin s => ?_, fun w e s h => execWord_of_decode_error h s⟩
  · rcases Nat.lt_or_ge pin 58 with h | h
    · exact ⟨_, exec_offset_of_lt h k s, .inl ⟨_, rfl, offset_le h k, offset_mod_four k pin⟩⟩
    · exact ⟨_, exec_offset_of_ge h k s, .inr rfl⟩
  · rcases Nat.lt_or_ge pin 58 with h | h
    · exact ⟨_, exec_pack_of_lt h f s, .inl ⟨_, _, rfl⟩⟩
    · exact ⟨_, exec_pack_of_ge h f s, .inr rfl⟩

end

section
/-! SUPPORT. The machine answers as the contracts (R2, R18): each family, every operation, and so every
request word with an answer that no state decides (R29). The output ports of a presented request (R27). -/

namespace Sys2Proof.Machine

theorem Contract.offset_of_lt {pin : Nat} (h : pin < 58) (k : RegisterKind) :
    Contract.offset k pin = .offset (base k + 4 * wordIndex (classOf k) pin) :=
  if_pos ⟨Int.natCast_nonneg pin, Int.ofNat_lt.mpr h⟩

theorem Contract.offset_eq_fault_iff (k : RegisterKind) (pin : Int) :
    Contract.offset k pin = .fault .pinDomain ↔ ¬(0 ≤ pin ∧ pin < 58) := by
  unfold Contract.offset
  split
  case isTrue h => exact iff_of_false nofun (not_not_intro h)
  case isFalse h => exact iff_of_true rfl h

/-- The arithmetic reading of the two words is the shifted one (R9, R76). -/
theorem Contract.pack_of_lt {pin : Nat} (h : pin < 58) (f : PinFunction) :
    Contract.pack f pin = .packed (packBits f.code pin) (clearMask pin) := by
  have hbits : BitVec.ofNat 32 (f.code.toNat * 2 ^ (3 * (pin % 10))) = packBits f.code pin := by
    rw [Nat.mul_comm 3, ← packBits_toNat, BitVec.ofNat_toNat, BitVec.setWidth_eq]
  have hmask : BitVec.ofNat 32 (0xFFFFFFFF - 7 * 2 ^ (3 * (pin % 10))) = clearMask pin := by
    rw [Nat.mul_comm 3, ← clearMask_toNat, BitVec.ofNat_toNat, BitVec.setWidth_eq]
  rw [← hbits, ← hmask]
  exact if_pos ⟨Int.natCast_nonneg pin, Int.ofNat_lt.mpr h⟩

theorem Contract.pack_eq_fault_iff (f : PinFunction) (pin : Int) :
    Contract.pack f pin = .fault .pinDomain ↔ ¬(0 ≤ pin ∧ pin < 58) := by
  unfold Contract.pack
  split
  case isTrue h => exact iff_of_false nofun (not_not_intro h)
  case isFalse h => exact iff_of_true rfl h

/-- The twelve `OFFSET` operations answer as the contract `offset(kind, pin)`, whatever the width of
the pin. -/
theorem exec_offset_eq_contract (k : RegisterKind) (pin : Nat) (s : State) :
    exec (Instr.offset k pin) s = .next (s.answer (Contract.offset k pin)) := by
  rcases Nat.lt_or_ge pin 58 with h | h
  · rw [exec_offset_of_lt h, Contract.offset_of_lt h]
  · rw [exec_offset_of_ge h, (Contract.offset_eq_fault_iff k pin).mpr (by omega)]

/-- `PACK` answers as the contract `pack(function, pin)`, whatever the width of the pin. -/
theorem exec_pack_eq_contract (f : PinFunction) (pin : Nat) (s : State) :
    exec (.pack f pin) s = .next (s.answer (Contract.pack f pin)) := by
  rcases Nat.lt_or_ge pin 58 with h | h
  · rw [exec_pack_of_lt h, Contract.pack_of_lt h]
  · rw [exec_pack_of_ge h, (Contract.pack_eq_fault_iff f pin).mpr (by omega)]

theorem Contract.answer_offset (k : RegisterKind) (pin : Nat) :
    Contract.answer (Instr.offset k pin) = Contract.offset k pin := by
  cases k <;> rfl

/-- Every operation answers as the contract it stands for (R2). -/
theorem exec_eq_contract (i : Instr) (s : State) :
    exec i s = .next (s.answer (Contract.answer i)) := by
  obtain ⟨k, pin, rfl⟩ | ⟨f, pin, rfl⟩ := i.offset_or_pack
  · rw [exec_offset_eq_contract, Contract.answer_offset]
  · exact exec_pack_eq_contract f pin s

/-- The answer to a word is one and the same in every state (R29). -/
theorem execWord_answers_uniformly (w : ReqWord) :
    ∃ x, ∀ s : State, execWord w s = .next (s.answer x) := by
  cases h : decode w with
  | ok i => exact ⟨_, fun s => (execWord_of_decode_ok h s).trans (exec_eq_contract i s)⟩
  | error e => exact ⟨_, execWord_of_decode_error h⟩

/-- An answered request's result drives the output ports (R27). -/
theorem State.outputs_of_response {s : State} {rq : Request} {x : Result}
    (hrq : s.request = some rq) (hx : s.response = some x) : s.outputs = x.drive s.draws := by
  simp [State.outputs, hrq, hx]

/-- The `CAUSE` codes of R84. -/
theorem Cause.code_eq (c : Cause) : c.code = if c = .pinDomain then 1#2 else 2#2 := by
  cases c <;> rfl

end Sys2Proof.Machine

open Sys2Proof Sys2Proof.Machine

/-- Settles O29: each contract faults by its own guard, and a natural pin is the case proved for the
machine. -/
theorem typedRequestsMeetTheContracts : Obligations.TypedRequestsMeetTheContracts := by
  refine fun pin => ⟨fun k => ⟨Contract.offset_eq_fault_iff k pin, fun h s => ?_⟩,
    fun f => ⟨Contract.pack_eq_fault_iff f pin, fun h s => ?_⟩⟩
  · lift pin to Nat using h
    exact exec_offset_eq_contract k pin s
  · lift pin to Nat using h
    exact exec_pack_eq_contract f pin s

/-- Settles O30: the answer that serves every state serves these two. -/
theorem answerIgnoresState : Obligations.AnswerIgnoresState := by
  intro w s t
  obtain ⟨x, hx⟩ := execWord_answers_uniformly w
  exact ⟨x, hx s, hx t⟩

/-- Settles O32: the ports are those the result drives; an offset up to `0xF0` fits its port, and the
cause is its code. -/
theorem outputPortsCarryTheResult : Obligations.OutputPortsCarryTheResult := by
  refine fun s rq hrq => ⟨fun o ho hx => ?_, fun b m hx => ?_, fun c hx => ?_⟩ <;>
    rw [State.outputs_of_response hrq hx]
  · exact ⟨rfl, rfl, rfl, Nat.mod_eq_of_lt (by omega), rfl⟩
  · exact ⟨rfl, rfl, rfl, rfl, rfl, rfl⟩
  · exact ⟨rfl, Cause.code_eq c, rfl, rfl⟩

end

section
/-! SUPPORT. The four fields of a request word and back (R47), and decoding as a function of the fields
(R52, R53): one equation per case, so that no proof unfolds the decoder again. -/

namespace Sys2Proof

section
variable (w : ReqWord)

theorem InPorts.ofWord_op_toNat : (InPorts.ofWord w).op.toNat = w.toNat / 0x8000 := by
  have := w.isLt
  simp only [InPorts.ofWord, BitVec.extractLsb'_toNat, Nat.shiftRight_eq_div_pow]
  omega

theorem InPorts.ofWord_kind_toNat : (InPorts.ofWord w).kind.toNat = w.toNat / 0x0800 % 16 := by
  simp only [InPorts.ofWord, BitVec.extractLsb'_toNat, Nat.shiftRight_eq_div_pow, Nat.reducePow]

theorem InPorts.ofWord_func_toNat : (InPorts.ofWord w).func.toNat = w.toNat / 0x0100 % 8 := by
  simp only [InPorts.ofWord, BitVec.extractLsb'_toNat, Nat.shiftRight_eq_div_pow, Nat.reducePow]

theorem InPorts.ofWord_pin_toNat : (InPorts.ofWord w).pin.toNat = w.toNat % 0x0100 := by
  simp only [InPorts.ofWord, BitVec.extractLsb'_toNat, Nat.shiftRight_zero, Nat.reducePow]

/-- Every word is the word of its fields: the fields leave no bit out. -/
@[simp] theorem InPorts.toWord_ofWord : (InPorts.ofWord w).toWord = w := by
  apply BitVec.eq_of_toNat_eq
  rw [InPorts.toWord_toNat, ofWord_op_toNat, ofWord_kind_toNat, ofWord_func_toNat, ofWord_pin_toNat]
  omega

/-- The fields read back from their word: no two of them share a bit. -/
@[simp] theorem InPorts.ofWord_toWord (p : InPorts) : InPorts.ofWord p.toWord = p := by
  have hword := p.toWord_toNat
  have := p.op.isLt
  have := p.kind.isLt
  have := p.func.isLt
  have := p.pin.isLt
  refine (InPorts.mk.injEq ..).mpr ⟨?op, ?kind, ?func, ?pin⟩ <;> apply BitVec.eq_of_toNat_eq
  case op => exact (ofWord_op_toNat _).trans (by omega)
  case kind => exact (ofWord_kind_toNat _).trans (by omega)
  case func => exact (ofWord_func_toNat _).trans (by omega)
  case pin => exact (ofWord_pin_toNat _).trans (by omega)

/-- The reserved `KIND` codes of an `OFFSET` request fill the words `0x6000` to `0x7FFF` (R54). -/
theorem InPorts.ofWord_reserved_iff :
    (InPorts.ofWord w).op = 0#1 ∧ 12 ≤ (InPorts.ofWord w).kind.toNat ↔
      0x6000 ≤ w.toNat ∧ w.toNat ≤ 0x7FFF := by
  rw [← BitVec.toNat_inj, ofWord_op_toNat, ofWord_kind_toNat, BitVec.toNat_ofNat]
  omega

end

theorem RegisterKind.code_lt (k : RegisterKind) : k.code.toNat < 12 := by
  cases k <;> decide

/-- Codes 12 to 15 are reserved (R49). -/
theorem RegisterKind.ofCode_reserved : ∀ {c : BitVec 4}, 12 ≤ c.toNat → ofCode c = none := by
  decide

/-- Every code below 12 names a kind (R49). -/
theorem RegisterKind.exists_code_eq {c : BitVec 4} (h : c.toNat < 12) :
    ∃ k : RegisterKind, k.code = c := by
  have named : ∀ c : BitVec 4, c.toNat < 12 → ∃ k ∈ ofCode c, k.code = c := by decide
  obtain ⟨k, -, hk⟩ := named c h
  exact ⟨k, hk⟩

/-- Every 3-bit value is the code of the function it names (R50). -/
theorem PinFunction.code_ofCode : ∀ c : BitVec 3, (ofCode c).code = c := by
  decide

section
variable {p : InPorts}

/-- R52, first case. -/
theorem decode_reserved (hop : p.op = 0#1) (hkind : 12 ≤ p.kind.toNat) :
    decode p.toWord = .error (.illegalKind p.kind.toNat) := by
  simp [decode, hop, RegisterKind.ofCode_reserved hkind]

/-- R52, second case. -/
theorem decode_offset (hop : p.op = 0#1) {k : RegisterKind} (hk : k.code = p.kind) :
    decode p.toWord = .ok (Instr.offset k p.pin.toNat) := by
  simp [decode, hop, ← hk]

/-- R52, third case; `KIND` is not looked at (R53). -/
theorem decode_pack (hop : p.op = 1#1) {f : PinFunction} (hf : f.code = p.func) :
    decode p.toWord = .ok (.pack f p.pin.toNat) := by
  simp [decode, hop, ← hf]

/-- With `OP = 0` the decoder does not look at `FUNC` (R53). -/
theorem decode_ignores_func (hop : p.op = 0#1) (f : BitVec 3) :
    decode { p with func := f }.toWord = decode p.toWord := by
  rcases Nat.lt_or_ge p.kind.toNat 12 with h | h
  · obtain ⟨k, hk⟩ := RegisterKind.exists_code_eq h
    rw [decode_offset hop hk, decode_offset (p := { p with func := f }) hop hk]
  · rw [decode_reserved hop h, decode_reserved (p := { p with func := f }) hop h]

end

/-- The canonical ports of the `OFFSET` operation of a kind (R53). -/
theorem Instr.offset_ports (k : RegisterKind) (pin : Nat) :
    (Instr.offset k pin).ports = ⟨0#1, k.code, 0#3, BitVec.ofNat 8 pin⟩ := by
  cases k <;> rfl

@[simp] theorem InPorts.ofWord_encode (i : Instr) : InPorts.ofWord (encode i) = i.ports :=
  InPorts.ofWord_toWord i.ports

/-- The canonical word of an `OFFSET` operation as a number (R47, R49). -/
theorem encode_offset_toNat (k : RegisterKind) {pin : Nat} (h : pin < 256) :
    (encode (Instr.offset k pin)).toNat = k.code.toNat * 0x0800 + pin := by
  rw [encode, InPorts.toWord_toNat, Instr.offset_ports]
  simp only [BitVec.toNat_ofNat]
  omega

namespace Machine

/-- Words that decode alike are answered alike (R52). -/
theorem execWord_congr {v w : ReqWord} (h : decode v = decode w) (s : State) :
    execWord v s = execWord w s := by
  rw [execWord, h, execWord]

/-- A row of R49 gives its kind the code and the base the model has. -/
theorem code_base_of_mem_kindRows {k : RegisterKind} {c b : Nat} (h : (k, c, b) ∈ kindRows) :
    c = k.code.toNat ∧ b = base k := by
  have rows : ∀ r ∈ kindRows, r.2.1 = r.1.code.toNat ∧ r.2.2 = base r.1 := by decide
  exact rows _ h

/-- Pin 0 is served by the first word of its kind (R60). -/
theorem wordIndex_pin_zero (c : AddressClass) : wordIndex c 0 = 0 := by
  cases c <;> rfl

/-- Every kind answers pin 0 with its base (R19, R49). -/
theorem exec_offset_pin_zero (k : RegisterKind) (s : State) :
    exec (Instr.offset k 0) s = .next (s.answer (.offset (base k))) := by
  rw [exec_offset_of_lt (by decide), wordIndex_pin_zero, Nat.mul_zero, Nat.add_zero]

end Machine

end Sys2Proof

open Sys2Proof Sys2Proof.Machine

/-- Settles O4: the three cases of the decoder, each executed by what it decodes to. -/
theorem decodeFollowsTheFields : Obligations.DecodeFollowsTheFields := by
  refine fun p s => ⟨fun hop hkind => ?_, fun hop hkind => ?_, fun hop => ?_⟩
  · have hdecode := decode_reserved hop hkind
    exact ⟨hdecode, execWord_of_decode_error hdecode s⟩
  · obtain ⟨k, hk⟩ := RegisterKind.exists_code_eq hkind
    have hdecode := decode_offset hop hk
    exact ⟨k, hk, hdecode, execWord_of_decode_ok hdecode s⟩
  · have hf := PinFunction.code_ofCode p.func
    have hdecode := decode_pack hop hf
    exact ⟨_, hf, hdecode, execWord_of_decode_ok hdecode s⟩

/-- Settles O5: the decoder's equations do not mention the ignored field, and execution sees only what
was decoded. -/
theorem ignoredFieldsChangeNothing : Obligations.IgnoredFieldsChangeNothing := by
  refine ⟨fun p f s hop => ?_, fun p k s hop => ?_, fun i => ?_⟩
  · have hdecode := decode_ignores_func hop f
    exact ⟨hdecode, execWord_congr hdecode s⟩
  · have hf := PinFunction.code_ofCode p.func
    have hok := decode_pack hop hf
    have hdecode := (decode_pack (p := { p with kind := k }) hop hf).trans hok.symm
    exact ⟨hdecode, execWord_congr hdecode s, _, hok⟩
  · rw [InPorts.ofWord_encode]
    obtain ⟨k, pin, rfl⟩ | ⟨f, pin, rfl⟩ := i.offset_or_pack
    · simp [Instr.offset_ports]
    · exact ⟨nofun, fun _ => rfl⟩

/-- Settles O6: the masked pattern, the range and the field values are one condition, and under it the
decoder rejects. -/
theorem reservedKindWordsAreIllegal : Obligations.ReservedKindWordsAreIllegal := by
  intro w
  have hfields := (word_and_E000_eq w).trans (InPorts.ofWord_reserved_iff w).symm
  refine ⟨word_and_E000_eq w, hfields, fun hw s => ?_⟩
  obtain ⟨hop, hkind⟩ := hfields.mp hw
  have hdecode := decode_reserved hop hkind
  rw [InPorts.toWord_ofWord] at hdecode
  exact ⟨by simp [hdecode], execWord_of_decode_error hdecode s, rfl⟩

/-- Settles O3: the value of the word, both round trips, and bit `i` of a field at its place. -/
theorem requestWordHoldsItsFields : Obligations.RequestWordHoldsItsFields := by
  refine ⟨fun p => ⟨p.toWord_toNat, p.ofWord_toWord⟩, fun w =>
    ⟨InPorts.toWord_ofWord w, ?_, fun i hi => ?_, fun i hi => ?_, fun i hi => ?_⟩⟩
  · simp [InPorts.ofWord]
  · simp [InPorts.ofWord, hi]
  · simp [InPorts.ofWord, hi]
  · simp [InPorts.ofWord, hi]

/-- Settles O8: the table is in order, every row is its kind's code and base, and pin 0 is answered with
the base. -/
theorem kindCodesAscendWithTheirBases : Obligations.KindCodesAscendWithTheirBases := by
  refine ⟨by decide, fun c k hc hk => ?_, fun k c b hrow pin s hpin => ?_⟩
  · exact absurd (hk ▸ k.code_lt) (Nat.not_lt.mpr hc)
  · obtain ⟨rfl, rfl⟩ := code_base_of_mem_kindRows hrow
    exact ⟨encode_offset_toNat k hpin, exec_offset_pin_zero k s⟩

/-- Settles O9: the codes are read off the table, and `FUNC` decodes to the function with its code. -/
theorem funcFieldIsTheFunctionCode : Obligations.FuncFieldIsTheFunctionCode :=
  ⟨rfl, fun _ c _ => ⟨_, PinFunction.code_ofCode c, decode_pack rfl (PinFunction.code_ofCode c)⟩⟩

/-- Settles O27: each spelling expands by definition; a `PACK` of a valid pin answers with the pin's
mask, whatever the function. -/
theorem aliasesExpandToOperations : Obligations.AliasesExpandToOperations :=
  ⟨fun _ => ⟨rfl, rfl, rfl, rfl, fun _ => ⟨rfl, rfl⟩, fun _ => ⟨rfl, rfl⟩⟩, fun f p s hp =>
    ⟨_, _, clearMask p, exec_pack_of_lt hp .input s, exec_pack_of_lt hp f s, rfl, rfl⟩⟩

end

section
/-! SUPPORT. The rows of the opcode map that hold the `OFFSET` operations (R56), read by the decoder, and
the ten rows of class B32 (R63 to R72) as rows of kinds. -/

namespace Sys2Proof

/-- The pattern of a kind's row of the opcode map (R56): the code in the `KIND` field, zeros elsewhere. -/
def RegisterKind.pattern (k : RegisterKind) : ReqWord := BitVec.ofNat 16 (k.code.toNat * 0x0800)

/-- The five high bits of a word in a kind's row are `OP = 0` and the kind's code (R47). -/
theorem InPorts.ofWord_of_and_eq_pattern {k : RegisterKind} {w : ReqWord}
    (h : w &&& 0xF800#16 = k.pattern) :
    (InPorts.ofWord w).op = 0#1 ∧ k.code = (InPorts.ofWord w).kind := by
  have hcode := k.code_lt
  have hhigh : w.toNat / 0x0800 = k.code.toNat := (word_and_F800_eq w _ (by omega)).mp h
  constructor <;> apply BitVec.eq_of_toNat_eq
  · rw [ofWord_op_toNat, BitVec.toNat_ofNat]
    omega
  · rw [ofWord_kind_toNat]
    omega

/-- Every word of a kind's row decodes to the kind's operation on its low byte (R52, R56). -/
theorem decode_of_and_eq_pattern {k : RegisterKind} {w : ReqWord} (h : w &&& 0xF800#16 = k.pattern) :
    decode w = .ok (Instr.offset k (w.toNat % 256)) := by
  obtain ⟨hop, hkind⟩ := InPorts.ofWord_of_and_eq_pattern h
  have hdecode := decode_offset hop hkind
  rwa [InPorts.toWord_ofWord, InPorts.ofWord_pin_toNat] at hdecode

namespace Machine

/-- The ten rows are those of the kinds of class B32 (R20), in the order of their codes. -/
theorem bankRows_eq : bankRows =
    (kindsInOrder.filter (classOf · = .b32)).map fun k => (Instr.offset k, base k, k.pattern) := rfl

/-- Each of the ten rows belongs to a kind of class B32. -/
theorem exists_kind_of_mem_bankRows {op : Nat → Instr} {b : Nat} {pattern : ReqWord}
    (h : (op, b, pattern) ∈ bankRows) :
    ∃ k, classOf k = .b32 ∧ op = Instr.offset k ∧ b = base k ∧ pattern = k.pattern := by
  rw [bankRows_eq] at h
  obtain ⟨k, hk, hrow⟩ := List.mem_map.mp h
  cases hrow
  exact ⟨k, of_decide_eq_true (List.mem_filter.mp hk).2, rfl, rfl, rfl⟩

end Machine

end Sys2Proof

open Sys2Proof Sys2Proof.Machine

/-- Settles O11: the row of `functionSelect`, and R62 as the formula of class F10. -/
theorem offsetFselAnswersItsWord : Obligations.OffsetFselAnswersItsWord := by
  refine ⟨fun w hw => decode_of_and_eq_pattern (k := .functionSelect) hw, fun pin s =>
    ⟨fun h => ?_, fun h => exec_offset_of_ge h .functionSelect s⟩⟩
  rw [← offsetF10_eq, offsetF10_eq_wordIndex]
  exact exec_offset_of_lt h .functionSelect s

/-- Settles O12: each row is that of a kind of class B32, and R63 to R72 are that class's formula. -/
theorem offsetBankKindsAnswerTheirWord : Obligations.OffsetBankKindsAnswerTheirWord := by
  intro op b pattern hrow
  obtain ⟨k, hclass, rfl, rfl, rfl⟩ := exists_kind_of_mem_bankRows hrow
  refine ⟨fun w hw => decode_of_and_eq_pattern hw, fun pin s =>
    ⟨fun h => ?_, fun h => exec_offset_of_ge h k s⟩⟩
  rw [← offsetB32_eq, offsetB32_eq_wordIndex, ← hclass]
  exact exec_offset_of_lt h k s

/-- Settles O13: the row of `pullUpDown`, and R73 as the formula of class P16. -/
theorem offsetPudAnswersItsWord : Obligations.OffsetPudAnswersItsWord := by
  refine ⟨fun w hw => decode_of_and_eq_pattern (k := .pullUpDown) hw, fun pin s =>
    ⟨fun h => ?_, fun h => exec_offset_of_ge h .pullUpDown s⟩⟩
  rw [← offsetP16_eq, offsetP16_eq_wordIndex]
  exact exec_offset_of_lt h .pullUpDown s

end

section
/-! SUPPORT. The `PACK` row of the opcode map (R56), read by the decoder. -/

namespace Sys2Proof

/-- In the words of the `PACK` row, `OP` is 1 (R47, R56). -/
theorem InPorts.ofWord_op_of_and_8000_eq {w : ReqWord} (h : w &&& 0x8000#16 = 0x8000#16) :
    (InPorts.ofWord w).op = 1#1 := by
  have hlow := (word_and_8000_eq w).mp h
  apply BitVec.eq_of_toNat_eq
  rw [ofWord_op_toNat, BitVec.toNat_ofNat]
  omega

/-- Every word of the `PACK` row decodes to the `PACK` of the function with code `FUNC` on its low byte
(R52, R56). -/
theorem decode_of_and_8000_eq {w : ReqWord} (h : w &&& 0x8000#16 = 0x8000#16) {f : PinFunction}
    (hf : f.code = (InPorts.ofWord w).func) : decode w = .ok (.pack f (w.toNat % 256)) := by
  have hdecode := decode_pack (InPorts.ofWord_op_of_and_8000_eq h) hf
  rwa [InPorts.toWord_ofWord, InPorts.ofWord_pin_toNat] at hdecode

end Sys2Proof

open Sys2Proof Sys2Proof.Machine

/-- Settles O14: the `PACK` row with the function its `FUNC` names, and R76 with both words read as
numbers. -/
theorem packAnswersBitsAndMask : Obligations.PackAnswersBitsAndMask := by
  refine ⟨fun w hw => ?_, fun f pin s => ⟨fun h => ?_, fun h => exec_pack_of_ge h f s⟩⟩
  · have hf := PinFunction.code_ofCode (InPorts.ofWord w).func
    refine ⟨_, ?_, decode_of_and_8000_eq hw hf⟩
    rw [hf, InPorts.ofWord_func_toNat]
  · exact ⟨_, _, exec_pack_of_lt h f s, packBits_toNat f.code pin, clearMask_toNat pin⟩

end

section
/-! SUPPORT. An operation faults exactly on its pin (R85), whichever it is; and a word whose fields are
no reserved `KIND` is an operation on the word's pin (R52), so these are all the faults there are (R84). -/

namespace Sys2Proof

/-- A word that is not an `OFFSET` of a reserved `KIND` decodes to an operation on its `PIN` (R52). -/
theorem decode_of_not_reserved {p : InPorts} (h : p.op = 1#1 ∨ p.kind.toNat < 12) :
    ∃ i : Instr, decode p.toWord = .ok i ∧ i.pin = p.pin.toNat := by
  rcases BitVec.eq_zero_or_eq_one p.op with hop | hop
  · obtain ⟨k, hk⟩ := RegisterKind.exists_code_eq (h.resolve_left (by simp [hop]))
    exact ⟨_, decode_offset hop hk, Instr.offset_pin k _⟩
  · exact ⟨_, decode_pack hop (PinFunction.code_ofCode p.func), rfl⟩

namespace Machine

theorem exec_of_pin_ge {i : Instr} (h : 58 ≤ i.pin) (s : State) :
    exec i s = .next (s.answer (.fault .pinDomain)) := by
  obtain ⟨k, pin, rfl⟩ | ⟨f, pin, rfl⟩ := i.offset_or_pack
  · exact exec_offset_of_ge (Instr.offset_pin k pin ▸ h) k s
  · exact exec_pack_of_ge h f s

theorem exec_of_pin_lt {i : Instr} (h : i.pin < 58) (s : State) :
    ∃ x : Result, x.isFault = false ∧ exec i s = .next (s.answer x) := by
  obtain ⟨k, pin, rfl⟩ | ⟨f, pin, rfl⟩ := i.offset_or_pack
  · exact ⟨_, rfl, exec_offset_of_lt (Instr.offset_pin k pin ▸ h) k s⟩
  · exact ⟨_, rfl, exec_pack_of_lt h f s⟩

end Machine

end Sys2Proof

open Sys2Proof Sys2Proof.Machine

/-- Settles O15: every operation is of one of the two families, and both check the pin first. -/
theorem everyOperationFaultsOutsidePinDomain : Obligations.EveryOperationFaultsOutsidePinDomain :=
  fun _ s h => exec_of_pin_ge h s

/-- Settles O16: a reserved `KIND` is rejected by the decoder before any pin is looked at; any other word
is an operation on its pin, and the pin alone decides whether it faults. -/
theorem faultsAndTheirPriority : Obligations.FaultsAndTheirPriority := by
  refine fun p s => ⟨fun ⟨hop, hkind⟩ => ?_, fun hlegal hpin => ?_, fun hlegal hpin => ?_, rfl, rfl⟩
  · exact execWord_of_decode_error (decode_reserved hop hkind) s
  · obtain ⟨i, hdecode, hi⟩ := decode_of_not_reserved hlegal
    rw [execWord_of_decode_ok hdecode]
    exact exec_of_pin_ge (hi ▸ hpin) s
  · obtain ⟨i, hdecode, hi⟩ := decode_of_not_reserved hlegal
    rw [execWord_of_decode_ok hdecode]
    exact exec_of_pin_lt (hi ▸ hpin) s

/-- Settles O33: an execution leaves its result and nothing else, so the fault is that result and the
ports are those it drives; the answer to a next word is the one every state gives. -/
theorem faultIsOnlyItsResult : Obligations.FaultIsOnlyItsResult := by
  intro w s t rq c hrequest hexec hresponse
  obtain ⟨x, hx⟩ := execWord_answers w s
  cases hx.symm.trans hexec
  cases hresponse
  rw [State.outputs_of_response (s := s.answer (.fault c)) hrequest rfl]
  exact ⟨rfl, rfl, rfl, rfl, rfl, fun v => answerIgnoresState v s _⟩

end

section
/-! SUPPORT. What a step does to a requester's results, and to those of a run that has ended (R90). -/

namespace Sys2Proof.Machine

/-- One more answer in the log is one more result of its requester and of no other. -/
theorem State.results_append {s t : State} {a : Answer} (h : t.log = s.log ++ [a]) (q : Nat) :
    t.results q = s.results q ++ if a.requester = q then [a.result] else [] := by
  by_cases hq : a.requester = q <;> simp [State.results, h, hq]

/-- A step answers nothing to a requester whose run has ended: the request it serves is a live one. -/
theorem step_keeps_ended_run {s t : State} {q : Nat} (hended : s.ended q = true)
    (h : step s = .next t) : t.results q = s.results q ∧ t.ended q = true := by
  obtain ⟨r, rest, x, hlive, -, rfl⟩ := step_next h
  have hrun : s.ended r.requester = false := (State.mem_live.mp (hlive ▸ List.mem_cons_self)).2
  have hother : r.requester ≠ q := fun hq => by simp [← hq, hrun] at hended
  constructor
  · rw [State.results_append rfl, if_neg hother, List.append_nil]
  · rw [State.ended_append rfl, hended, Bool.true_or]

end Sys2Proof.Machine

open Sys2Proof Sys2Proof.Machine

/-- Settles O39: the step that answers a fault logs it to the requester it served; and what one step keeps
of an ended run, every run keeps. -/
theorem faultEndsItsRun : Obligations.FaultEndsItsRun := by
  refine ⟨fun s t r c hstep hrequest hresponse => ?_, fun q k s t hended hrun => ?_⟩
  · obtain ⟨r', rest, x, -, -, rfl⟩ := step_next hstep
    cases hrequest
    cases hresponse
    rw [State.ended_append rfl]
    simp [Result.isFault]
  · refine run_keeps (Kept := fun u => u.results q = s.results q ∧ u.ended q = true)
      (fun u v ⟨hresults, hkept⟩ hstep => ?_) k s t ⟨rfl, hended⟩ hrun
    obtain ⟨hsame, hstays⟩ := step_keeps_ended_run hkept hstep
    exact ⟨hsame.trans hresults, hstays⟩

end

section
/-! SUPPORT. What the encoder answers to a requester's question, and how a fault of it passes through the
update of R80: no access is made (R110). -/

namespace Sys2Proof.Machine

/-- What an operation leaves at reset is what a requester is told (R14). -/
theorem ask_of_exec {i : Instr} {x : Result}
    (h : exec i State.reset = .next (State.reset.answer x)) : ask i = some x := by
  rw [ask, h]
  rfl

theorem ask_of_pin_ge {i : Instr} (h : 58 ≤ i.pin) : ask i = some (.fault .pinDomain) :=
  ask_of_exec (exec_of_pin_ge h State.reset)

section
variable {w : World} {m : Nat} {f : PinFunction} {pin : Nat}

/-- A fault on the offset ends the first half of the update, in every world (R80, R90). -/
theorem World.beginUpdate_of_ask_fault {c : Cause} (h : ask (.offsetFsel pin) = some (.fault c)) :
    w.beginUpdate m f pin = .fault (.encoder c) := by
  rw [beginUpdate, h]

/-- An update whose first half faults has no second half. -/
theorem World.setFunction_of_beginUpdate_fault {x : AccessFault}
    (h : w.beginUpdate m f pin = .fault x) : w.setFunction m f pin = .fault x := by
  rw [setFunction, h]

end

end Sys2Proof.Machine

open Sys2Proof Sys2Proof.Machine

/-- Settles O44: the encoder's fault on the pin ends the first half of the update, and with it the
whole. -/
theorem invalidPinReachesNoRegister : Obligations.InvalidPinReachesNoRegister := by
  intro w m f pin hpin
  have hbegin : w.beginUpdate m f pin = .fault (.encoder .pinDomain) :=
    World.beginUpdate_of_ask_fault (ask_of_pin_ge hpin)
  exact ⟨hbegin, World.setFunction_of_beginUpdate_fault hbegin⟩

/-- Settles O45: reads and writes stand behind the same guard, which faults whatever it guards. -/
theorem noAccessOutsideALiveMapping : Obligations.NoAccessOutsideALiveMapping :=
  fun _ _ hlive o n _ => ⟨World.guard_of_not_live hlive o n _, World.guard_of_not_live hlive o n _⟩

end

section
/-! SUPPORT. Decoding read backwards (R52): what a word that decodes, or does not, holds in its fields; the
canonical word by its fields (R53); and the rows of the opcode map, of which each word lies in one (R56). -/

namespace Sys2Proof

/-- D20: the canonical word holds every operand of a well-formed operation. -/
theorem decode_encode {i : Instr} (h : i.WellFormed) : decode (encode i) = .ok i := by
  have hpin : (BitVec.ofNat 8 i.pin).toNat = i.pin := Nat.mod_eq_of_lt (i.wellFormed_iff.mp h)
  obtain ⟨k, pin, rfl⟩ | ⟨f, pin, rfl⟩ := i.offset_or_pack
  · rw [Instr.offset_pin] at hpin
    rw [encode, Instr.offset_ports, decode_offset (k := k) rfl rfl, hpin]
  · exact (decode_pack (f := f) rfl rfl).trans (congrArg (Except.ok ∘ Instr.pack f) hpin)

/-- A word that decodes is an `OFFSET` request with the code of a kind, or a `PACK` request (R52). -/
theorem decode_ok_cases {w : ReqWord} {i : Instr} (h : decode w = .ok i) :
    ((InPorts.ofWord w).op = 0#1 ∧ ∃ k : RegisterKind, k.code = (InPorts.ofWord w).kind ∧
      i = Instr.offset k (InPorts.ofWord w).pin.toNat) ∨
    ((InPorts.ofWord w).op = 1#1 ∧ ∃ f : PinFunction, f.code = (InPorts.ofWord w).func ∧
      i = .pack f (InPorts.ofWord w).pin.toNat) := by
  rw [← InPorts.toWord_ofWord w] at h
  rcases BitVec.eq_zero_or_eq_one (InPorts.ofWord w).op with hop | hop
  · rcases Nat.lt_or_ge (InPorts.ofWord w).kind.toNat 12 with hkind | hkind
    · obtain ⟨k, hk⟩ := RegisterKind.exists_code_eq hkind
      cases (decode_offset hop hk).symm.trans h
      exact .inl ⟨hop, k, hk, rfl⟩
    · cases (decode_reserved hop hkind).symm.trans h
  · have hf := PinFunction.code_ofCode (InPorts.ofWord w).func
    cases (decode_pack hop hf).symm.trans h
    exact .inr ⟨hop, _, hf, rfl⟩

/-- A word that does not decode is an `OFFSET` request with a reserved `KIND` (R52, R54). -/
theorem reserved_of_decode_error {w : ReqWord} {e : DecodeReject} (h : decode w = .error e) :
    (InPorts.ofWord w).op = 0#1 ∧ 12 ≤ (InPorts.ofWord w).kind.toNat := by
  by_contra hlegal
  have hlegal : (InPorts.ofWord w).op = 1#1 ∨ (InPorts.ofWord w).kind.toNat < 12 :=
    (BitVec.eq_zero_or_eq_one _).symm.imp_right fun hop => Nat.not_le.mp fun hkind => hlegal ⟨hop, hkind⟩
  obtain ⟨i, hi, -⟩ := decode_of_not_reserved hlegal
  rw [InPorts.toWord_ofWord, h] at hi
  cases hi

/-- The operation a word decodes to has the word's `PIN`, which fits the port (R51). -/
theorem wellFormed_of_decode_ok {w : ReqWord} {i : Instr} (h : decode w = .ok i) : i.WellFormed := by
  have hpin := (InPorts.ofWord w).pin.isLt
  obtain ⟨-, k, -, rfl⟩ | ⟨-, f, -, rfl⟩ := decode_ok_cases h
  · rwa [Instr.wellFormed_iff, Instr.offset_pin]
  · exact hpin

/-- The fields are bit ranges, so a mask acts on each field by its own bits (R47). -/
theorem InPorts.ofWord_and (v w : ReqWord) : InPorts.ofWord (v &&& w) =
    ⟨(ofWord v).op &&& (ofWord w).op, (ofWord v).kind &&& (ofWord w).kind,
      (ofWord v).func &&& (ofWord w).func, (ofWord v).pin &&& (ofWord w).pin⟩ := by
  simp only [ofWord, BitVec.extractLsb'_and]

/-- The mask of an `OFFSET` request zeroes `FUNC` alone (R53). -/
theorem InPorts.ofWord_and_F8FF (w : ReqWord) :
    InPorts.ofWord (w &&& 0xF8FF#16) = ⟨(ofWord w).op, (ofWord w).kind, 0#3, (ofWord w).pin⟩ := by
  have hmask : InPorts.ofWord 0xF8FF#16 = ⟨.allOnes 1, .allOnes 4, 0#3, .allOnes 8⟩ := rfl
  rw [ofWord_and, hmask]
  simp only [BitVec.and_allOnes, BitVec.and_zero]

/-- The mask of a `PACK` request zeroes `KIND` alone (R53). -/
theorem InPorts.ofWord_and_87FF (w : ReqWord) :
    InPorts.ofWord (w &&& 0x87FF#16) = ⟨(ofWord w).op, 0#4, (ofWord w).func, (ofWord w).pin⟩ := by
  have hmask : InPorts.ofWord 0x87FF#16 = ⟨.allOnes 1, 0#4, .allOnes 3, .allOnes 8⟩ := rfl
  rw [ofWord_and, hmask]
  simp only [BitVec.and_allOnes, BitVec.and_zero]

/-- The canonical word is that of the operation (R53, D20). -/
theorem encode_of_decode_ok {w : ReqWord} {i : Instr} (h : decode w = .ok i) :
    encode i = canonical w := by
  rw [← InPorts.toWord_ofWord (canonical w), encode]
  congr 1
  obtain ⟨hop, k, hk, rfl⟩ | ⟨hop, f, hf, rfl⟩ := decode_ok_cases h
  · rw [canonical, if_pos (show w.extractLsb' 15 1 = 0#1 from hop), InPorts.ofWord_and_F8FF,
      Instr.offset_ports, hk, hop, BitVec.ofNat_toNat, BitVec.setWidth_eq]
  · rw [canonical, if_neg (show w.extractLsb' 15 1 ≠ 0#1 from hop.trans_ne (by decide)),
      InPorts.ofWord_and_87FF, Instr.ports, hf, hop, BitVec.ofNat_toNat, BitVec.setWidth_eq]

section
variable (k : RegisterKind) (pin : Nat)

theorem Instr.offset_row_mask : (Instr.offset k pin).row.mask = 0xF800#16 := by
  cases k <;> rfl

theorem Instr.offset_row_pattern : (Instr.offset k pin).row.pattern = k.pattern := by
  cases k <;> rfl

end

/-- No row of the opcode map depends on an operand (R56). -/
theorem Instr.row_mem_opcodeRows (i : Instr) : i.row ∈ opcodeRows := by
  cases i <;> simp [opcodeRows, Instr.row]

/-- A word lies in the row of the operation it decodes to (R56): its `OP` and `KIND`, or its `OP` alone,
are those of the row. -/
theorem word_and_row_mask_of_decode_ok {w : ReqWord} {i : Instr} (h : decode w = .ok i) :
    w &&& i.row.mask = i.row.pattern := by
  obtain ⟨hop, k, hk, rfl⟩ | ⟨hop, f, -, rfl⟩ := decode_ok_cases h
  · have hhigh : (InPorts.ofWord w).op.toNat = 0 := congrArg BitVec.toNat hop
    have hkind : k.code.toNat = (InPorts.ofWord w).kind.toNat := congrArg BitVec.toNat hk
    rw [InPorts.ofWord_op_toNat] at hhigh
    rw [InPorts.ofWord_kind_toNat] at hkind
    rw [Instr.offset_row_mask, Instr.offset_row_pattern]
    exact (word_and_F800_eq w _ (by omega)).mpr (by omega)
  · have hhigh : (InPorts.ofWord w).op.toNat = 1 := congrArg BitVec.toNat hop
    rw [InPorts.ofWord_op_toNat] at hhigh
    exact (word_and_8000_eq w).mpr (by omega)

/-- A word that does not decode lies in the illegal row (R54, R56). -/
theorem word_and_illegalRow_mask_of_decode_error {w : ReqWord} {e : DecodeReject}
    (h : decode w = .error e) : w &&& illegalRow.mask = illegalRow.pattern :=
  (word_and_E000_eq w).mpr ((InPorts.ofWord_reserved_iff w).mp (reserved_of_decode_error h))

/-- Two rows whose patterns agree where both masks look are one row (R56). -/
theorem row_eq_of_patterns_agree : ∀ a ∈ opcodeRows ++ [illegalRow], ∀ b ∈ opcodeRows ++ [illegalRow],
    a.pattern &&& b.mask = b.pattern &&& a.mask → a = b := by
  decide

/-- No word lies in two rows (R56). -/
theorem row_eq_of_word {w : ReqWord} {a b : OpcodeRow} (ha : a ∈ opcodeRows ++ [illegalRow])
    (hb : b ∈ opcodeRows ++ [illegalRow]) (hwa : w &&& a.mask = a.pattern)
    (hwb : w &&& b.mask = b.pattern) : a = b := by
  apply row_eq_of_patterns_agree a ha b hb
  rw [← hwa, ← hwb, BitVec.and_assoc, BitVec.and_assoc, BitVec.and_comm a.mask]

/-- Every word lies in a row: that of its operation, or the illegal one (R56). -/
theorem exists_row_of_word (w : ReqWord) :
    ∃ row ∈ opcodeRows ++ [illegalRow], w &&& row.mask = row.pattern := by
  cases h : decode w with
  | ok i => exact ⟨i.row, List.mem_append_left _ i.row_mem_opcodeRows, word_and_row_mask_of_decode_ok h⟩
  | error e => exact ⟨illegalRow, by simp, word_and_illegalRow_mask_of_decode_error h⟩

end Sys2Proof

open Sys2Proof Sys2Proof.Machine

/-- Settles O1: both families decode to their code and their pin, which the port has not cut. -/
theorem decodeEncodeRoundTrip : Obligations.DecodeEncodeRoundTrip :=
  fun _ h => decode_encode h

/-- Settles O2: the canonical word is the word of the decoded operation, so it decodes to that operation
by the round trip. -/
theorem encodeOfDecodeIsCanonicalWord : Obligations.EncodeOfDecodeIsCanonicalWord := by
  intro w i h
  have hwf := wellFormed_of_decode_ok h
  exact ⟨hwf, encode_of_decode_ok h, encode_of_decode_ok h ▸ decode_encode hwf⟩

/-- Settles O7: decoding finds a word its row, and no two rows have a word in common. -/
theorem opcodeMapPartitionsTheWords : Obligations.OpcodeMapPartitionsTheWords := by
  refine ⟨fun w => ?_, fun w i h => ⟨i.row_mem_opcodeRows, word_and_row_mask_of_decode_ok h⟩,
    fun w e h => word_and_illegalRow_mask_of_decode_error h⟩
  obtain ⟨row, hrow, hw⟩ := exists_row_of_word w
  exact ⟨row, ⟨hrow, hw⟩, fun other ⟨hother, hwother⟩ => row_eq_of_word hother hrow hwother hw⟩

/-- Settles O10: each word is evaluated by the decoder. -/
theorem knownRequestWordsDecode : Obligations.KnownRequestWordsDecode :=
  ⟨rfl, rfl, rfl, rfl, rfl, rfl⟩

end

section
/-! SUPPORT. Serving a request in terms of its word alone (R14, R29), and from it what every step keeps: the
invariant, and the results each requester has and will have (R90, R97). -/

namespace Sys2Proof.Machine

/-- The kinds in order are numbered by their codes, the reserved codes by nothing (R49). -/
theorem kindsInOrder_getElem?_code :
    ∀ c : BitVec 4, kindsInOrder[c.toNat]? = RegisterKind.ofCode c := by
  decide

/-- The functions in order are numbered by their codes (R50). -/
theorem functionsInOrder_getElem?_code :
    ∀ c : BitVec 3, functionsInOrder[c.toNat]? = some (PinFunction.ofCode c) := by
  decide

/-- The contract's arithmetic reading of a word is the reading of its fields (R47). -/
theorem Contract.answerWord_eq (w : ReqWord) : Contract.answerWord w =
    if (InPorts.ofWord w).op.toNat = 0 then
      (RegisterKind.ofCode (InPorts.ofWord w).kind).elim (.fault .illegalKind)
        (Contract.offset · (InPorts.ofWord w).pin.toNat)
    else Contract.pack (PinFunction.ofCode (InPorts.ofWord w).func) (InPorts.ofWord w).pin.toNat := by
  rw [Contract.answerWord, ← InPorts.ofWord_op_toNat, ← InPorts.ofWord_kind_toNat,
    ← InPorts.ofWord_func_toNat, ← InPorts.ofWord_pin_toNat, kindsInOrder_getElem?_code,
    functionsInOrder_getElem?_code]
  cases RegisterKind.ofCode (InPorts.ofWord w).kind <;> rfl

/-- The contract answers a word as the operation it decodes to (R52). -/
theorem Contract.answerWord_of_decode_ok {w : ReqWord} {i : Instr} (h : decode w = .ok i) :
    Contract.answerWord w = Contract.answer i := by
  rw [Contract.answerWord_eq]
  obtain ⟨hop, k, hk, rfl⟩ | ⟨hop, f, hf, rfl⟩ := decode_ok_cases h
  · simp [hop, ← hk, Contract.answer_offset]
  · simp [hop, ← hf, Contract.answer]

/-- The contract answers an illegal word as execution does (R86). -/
theorem Contract.answerWord_of_decode_error {w : ReqWord} {e : DecodeReject}
    (h : decode w = .error e) : Contract.answerWord w = .fault .illegalKind := by
  obtain ⟨hop, hkind⟩ := reserved_of_decode_error h
  simp [Contract.answerWord_eq, hop, RegisterKind.ofCode_reserved hkind]

/-- Every word is answered as the contract says, in every state (R29). -/
theorem execWord_eq_contract (w : ReqWord) (s : State) :
    execWord w s = .next (s.answer (Contract.answerWord w)) := by
  cases h : decode w with
  | ok i => rw [execWord_of_decode_ok h, exec_eq_contract, Contract.answerWord_of_decode_ok h]
  | error e => rw [execWord_of_decode_error h, Contract.answerWord_of_decode_error h]

/-- The state after a request is served: it stands on the ports with the contract's answer to its word,
and the answer is in the log (R14). -/
def State.served (s : State) (r : Request) (rest : List Request) : State where
  queue := rest
  request := some r
  response := some (Contract.answerWord r.word)
  log := s.log ++ [⟨r.requester, r.word, Contract.answerWord r.word⟩]
  draws := s.draws + 1

theorem step_of_live {s : State} {r : Request} {rest : List Request} (h : s.live = r :: rest) :
    step s = .next (s.served r rest) := by
  rw [step_of_live_cons h, serve, execWord_eq_contract]
  exact congrArg _ (State.deliver_accept_answer ..)

/-- A step that answers served the first live request. -/
theorem served_of_step_next {s t : State} (h : step s = .next t) :
    ∃ r rest, s.live = r :: rest ∧ t = s.served r rest := by
  obtain ⟨r, rest, -, hlive, -, -⟩ := step_next h
  cases (step_of_live hlive).symm.trans h
  exact ⟨r, rest, hlive, rfl⟩

section
variable {s : State} {r : Request} {rest : List Request}

/-- The run of the request a step serves has not ended. -/
theorem State.ended_head_of_live (h : s.live = r :: rest) : s.ended r.requester = false :=
  (State.mem_live.mp (h ▸ List.mem_cons_self)).2

/-- Serving the first live request keeps the invariant: its answer is the contract's, and its requester had
no fault (R90). -/
theorem State.Inv.served (hs : s.Inv) (h : s.live = r :: rest) : (s.served r rest).Inv where
  answersPure a ha := by
    rcases List.mem_append.mp ha with ha | ha
    · exact hs.answersPure a ha
    · rw [List.mem_singleton.mp ha]
  faultLast := by
    refine List.pairwise_append.mpr ⟨hs.faultLast, List.pairwise_singleton .., ?_⟩
    intro a ha b hb hfault hsame
    rw [List.mem_singleton.mp hb] at hsame
    have hended : s.ended r.requester = true :=
      List.any_eq_true.mpr ⟨a, ha, by simp [hfault, ← hsame]⟩
    rw [State.ended_head_of_live h] at hended
    cases hended
  lastShown := List.getLast?_concat

theorem State.served_log :
    (s.served r rest).log = s.log ++ [⟨r.requester, r.word, Contract.answerWord r.word⟩] := rfl

theorem State.results_served (q : Nat) : (s.served r rest).results q =
    s.results q ++ if r.requester = q then [Contract.answerWord r.word] else [] :=
  State.results_append State.served_log q

theorem State.ended_served (q : Nat) : (s.served r rest).ended q =
    (s.ended q || (r.requester == q && (Contract.answerWord r.word).isFault)) :=
  State.ended_append State.served_log q

/-- All that waits for a requester whose run has not ended is live. -/
theorem State.pending_eq_of_not_ended {q : Nat} (h : s.ended q = false) :
    s.pending q = (s.live.filter fun r => r.requester == q).map Request.word := by
  rw [State.pending, State.live, List.filter_filter]
  congr 1
  refine List.filter_congr fun r _ => ?_
  by_cases hq : r.requester = q <;> simp [hq, h]

/-- Before the first live request is served, it is the first that waits for its requester. -/
theorem State.pending_of_live {q : Nat} (h : s.live = r :: rest) (hq : s.ended q = false) :
    s.pending q = (if r.requester = q then [r.word] else []) ++ (s.served r rest).pending q := by
  rw [State.pending_eq_of_not_ended hq, h, List.filter_cons]
  by_cases hr : r.requester = q <;> simp [hr, State.pending, State.served]

theorem State.foretold_of_ended {q : Nat} (h : s.ended q = true) : s.foretold q = s.results q :=
  if_pos h

theorem State.foretold_of_not_ended {q : Nat} (h : s.ended q = false) :
    s.foretold q = s.results q ++ uptoFault ((s.pending q).map Contract.answerWord) :=
  if_neg (by simp [h])

/-- Serving a requester's own request moves its answer from what is foretold to what is had (R14, R90). -/
theorem State.foretold_served_own (h : s.live = r :: rest) :
    (s.served r rest).foretold r.requester = s.foretold r.requester := by
  have hrun := State.ended_head_of_live h
  have hpending := State.pending_of_live h hrun
  have hresults := State.results_served (s := s) (r := r) (rest := rest) r.requester
  have hended := State.ended_served (s := s) (r := r) (rest := rest) r.requester
  rw [if_pos rfl] at hpending hresults
  rw [hrun, beq_self_eq_true, Bool.false_or, Bool.true_and] at hended
  rw [State.foretold_of_not_ended hrun, hpending]
  cases hfault : (Contract.answerWord r.word).isFault with
  | true =>
    rw [State.foretold_of_ended (hended.trans hfault), hresults]
    simp [uptoFault, hfault]
  | false =>
    rw [State.foretold_of_not_ended (hended.trans hfault), hresults]
    simp [uptoFault, hfault]

/-- Serving another requester's request leaves what is foretold as it was (R97). -/
theorem State.foretold_served_other (h : s.live = r :: rest) {q : Nat} (hq : r.requester ≠ q) :
    (s.served r rest).foretold q = s.foretold q := by
  have hresults := State.results_served (s := s) (r := r) (rest := rest) q
  have hended := State.ended_served (s := s) (r := r) (rest := rest) q
  rw [if_neg hq, List.append_nil] at hresults
  rw [beq_false_of_ne hq, Bool.false_and, Bool.or_false] at hended
  cases hrun : s.ended q with
  | true =>
    rw [State.foretold_of_ended hrun, State.foretold_of_ended (hended.trans hrun), hresults]
  | false =>
    have hpending := State.pending_of_live h hrun
    rw [if_neg hq, List.nil_append] at hpending
    rw [State.foretold_of_not_ended hrun, State.foretold_of_not_ended (hended.trans hrun), hresults,
      hpending]

/-- No step changes what is foretold of any requester (R97). -/
theorem State.foretold_served (h : s.live = r :: rest) (q : Nat) :
    (s.served r rest).foretold q = s.foretold q := by
  rcases eq_or_ne r.requester q with rfl | hq
  · exact State.foretold_served_own h
  · exact State.foretold_served_other h hq

/-- With no live request, a requester's results are all it was to have. -/
theorem State.results_of_live_nil (h : s.live = []) (q : Nat) : s.results q = s.foretold q := by
  cases hq : s.ended q with
  | true => rw [State.foretold_of_ended hq]
  | false => simp [State.foretold_of_not_ended hq, State.pending_eq_of_not_ended hq, h, uptoFault]

end

/-- No run of many steps changes what is foretold of any requester (R97). -/
theorem foretold_of_run {k : Nat} {s t : State} (h : Host.Core.run Sys2Proof.core k s = .next t) (q : Nat) :
    t.foretold q = s.foretold q := by
  refine run_keeps (Kept := fun u => u.foretold q = s.foretold q) (fun u v hu hstep => ?_) k s t rfl h
  obtain ⟨r, rest, hlive, rfl⟩ := served_of_step_next hstep
  rw [State.foretold_served hlive, hu]

theorem State.length_live_le (s : State) : s.live.length ≤ s.queue.length :=
  List.length_filter_le _ _

/-- Serving what is live, one request a step, comes to an end (R114). -/
theorem run_to_live_nil (n : Nat) : ∀ s : State, s.queue.length ≤ n → ∃ (k : Nat) (t : State),
    k ≤ s.queue.length ∧ Host.Core.run Sys2Proof.core k s = .next t ∧ t.live = [] ∧
      t.log.length = s.log.length + k := by
  induction n with
  | zero =>
    intro s hs
    have hqueue : s.queue = [] := List.length_eq_zero_iff.mp (Nat.le_zero.mp hs)
    exact ⟨0, s, Nat.zero_le _, run_zero s, by simp [State.live, hqueue], rfl⟩
  | succ n ih =>
    intro s hs
    cases hlive : s.live with
    | nil => exact ⟨0, s, Nat.zero_le _, run_zero s, hlive, rfl⟩
    | cons r rest =>
      have hshorter := s.length_live_le
      rw [hlive, List.length_cons] at hshorter
      obtain ⟨k, t, hk, hrun, hdone, hlog⟩ := ih (s.served r rest) (show rest.length ≤ n by omega)
      refine ⟨k + 1, t, ?_, (run_succ_of_step (step_of_live hlive) k).trans hrun, hdone, ?_⟩
      · have : k ≤ rest.length := hk
        omega
      · rw [hlog, State.served_log, List.length_append, List.length_singleton]
        omega

/-- The word placed next is the first live request, before all that was live (log entry 7). -/
theorem State.live_withFetchWord (s : State) (w : ReqWord) :
    (s.withFetchWord 16 w.toNat).live = ⟨s.freshRequester, w⟩ :: s.live := by
  have hword : tableWord 16 w.toNat = w := by
    rw [tableWord, Nat.mod_eq_of_lt w.isLt, BitVec.ofNat_toNat, BitVec.setWidth_eq]
  rw [State.withFetchWord, hword]
  have hfresh : (placeNext s w).ended s.freshRequester = false := s.ended_freshRequester
  exact List.filter_cons_of_pos (by simp [hfresh])

end Sys2Proof.Machine


open Sys2Proof Sys2Proof.Machine

/-- Settles O37: the step served the first live request, which keeps the invariant. -/
theorem stepKeepsTheInvariant : Obligations.StepKeepsTheInvariant := by
  intro s t hs hstep
  obtain ⟨r, rest, hlive, rfl⟩ := served_of_step_next hstep
  exact hs.served hlive

/-- Settles O38: nothing has been answered and nothing is on the ports. -/
theorem resetHasTheInvariant : Obligations.ResetHasTheInvariant :=
  ⟨nofun, .nil, rfl⟩

/-- Settles O40: what is foretold is kept by every run, and it is what a requester has once nothing live
waits. -/
theorem ownRequestsDecideEveryRun : Obligations.OwnRequestsDecideEveryRun :=
  fun _ q _ _ hrun => ⟨foretold_of_run hrun q, fun hdone =>
    (State.results_of_live_nil hdone q).trans (foretold_of_run hrun q)⟩

/-- Settles O41: the run that serves all that is live ends with what was foretold. -/
theorem everyRunIsServedToItsEnd : Obligations.EveryRunIsServedToItsEnd := by
  intro s
  obtain ⟨k, t, hk, hrun, hdone, hlog⟩ := run_to_live_nil _ s le_rfl
  exact ⟨k, t, hk, hrun, hdone, hlog, fun q => (ownRequestsDecideEveryRun k q s t hrun).2 hdone⟩

/-- Settles O28: decoding and the contract's arithmetic read the same operation, which answers as its
contract. -/
theorem everyWordAnswersAsTheContract : Obligations.EveryWordAnswersAsTheContract :=
  execWord_eq_contract

/-- Settles O31: an answer is all an operation leaves. -/
theorem operationsOnlyAnswer : Obligations.OperationsOnlyAnswer := by
  intro i s
  obtain ⟨x, hx⟩ := exec_answers i s
  exact ⟨_, hx, rfl, rfl, rfl, rfl⟩

/-- Settles O34: the step serves the first live request, and the contract's answer to its word is that of
the decoded operation. -/
theorem stepRunsTheDecodedOperation : Obligations.StepRunsTheDecodedOperation := by
  intro s r rest i hlive hdecode
  refine ⟨Contract.answerWord r.word, ?_, step_of_live hlive⟩
  rw [← execWord_of_decode_ok hdecode]
  exact execWord_eq_contract _ _

/-- Settles O35: the step serves the first live request, whose word the contract answers with
`ILLEGAL_KIND`. -/
theorem stepAnswersAnIllegalWord : Obligations.StepAnswersAnIllegalWord := by
  intro s r rest e hlive hdecode
  rw [step_of_live hlive, State.served, Contract.answerWord_of_decode_error hdecode]

/-- Settles O36: with a live request the step serves it, and with none there is no step. -/
theorem stepAnswersOneRequest : Obligations.StepAnswersOneRequest := by
  refine ⟨fun s t hstep => ?_, fun s => ⟨fun hlive => ⟨_, step_of_live_nil hlive⟩, ?_⟩, fun s x hstep => ?_⟩
  · obtain ⟨r, rest, hlive, rfl⟩ := served_of_step_next hstep
    exact ⟨r, rest, hlive, rfl, rfl, rfl, rfl⟩
  · rintro ⟨f, hstep⟩
    cases hlive : s.live with
    | nil => rfl
    | cons r rest => cases (step_of_live hlive).symm.trans hstep
  · cases hlive : s.live with
    | nil => cases (step_of_live_nil hlive).symm.trans hstep
    | cons r rest => cases (step_of_live hlive).symm.trans hstep

/-- Settles O42: the placed word is the first live request, so the step serves it and the rest waits. -/
theorem placedWordRunsNext : Obligations.PlacedWordRunsNext :=
  fun s w => ⟨_, step_of_live (s.live_withFetchWord w), rfl, rfl, rfl, s.ended_freshRequester⟩

end

section
/-! SUPPORT. The word that serves a pin (R60) and the address map (R36). -/

namespace Sys2Proof

/-- The kind and the pin of an `OFFSET` are in its term. -/
theorem Instr.offset_inj {k l : RegisterKind} {p q : Nat} (h : Instr.offset k p = Instr.offset l q) :
    k = l ∧ p = q := by
  have hkind := congrArg Instr.kind? h
  have hpin := congrArg Instr.pin h
  simpa using And.intro hkind hpin

namespace Machine

/-- How many pins a word of a class serves (R20). -/
def pinsPerWord : AddressClass → Nat
  | .f10 => 10
  | .p16 => 16
  | .b32 => 32

/-- R60 for every class: the comparison form of class B32 is the quotient at a valid pin. -/
theorem wordIndex_eq_div {pin : Nat} (h : pin < 58) : ∀ c, wordIndex c pin = pin / pinsPerWord c
  | .f10 => rfl
  | .p16 => rfl
  | .b32 => by
    rw [wordIndex_b32, pinsPerWord]
    split <;> omega

/-- The word index does not fall as the pin rises. -/
theorem wordIndex_mono {p q : Nat} (hpq : p ≤ q) (hq : q < 58) (c : AddressClass) :
    wordIndex c p ≤ wordIndex c q := by
  rw [wordIndex_eq_div (by omega), wordIndex_eq_div hq]
  exact Nat.div_le_div_right hpq

/-- The offset at which a kind's word for a pin lies (R60). -/
def offsetOf (k : RegisterKind) (pin : Nat) : Nat := base k + 4 * wordIndex (classOf k) pin

theorem exec_offset_eq_offsetOf {pin : Nat} (h : pin < 58) (k : RegisterKind) (s : State) :
    exec (Instr.offset k pin) s = .next (s.answer (.offset (offsetOf k pin))) :=
  exec_offset_of_lt h k s

/-- An offset is answered by an `OFFSET` of a valid pin alone, and is that of its kind and pin. -/
theorem offsetOf_of_answered {i : Instr} {s t : State} {o : Nat} (hexec : exec i s = .next t)
    (hresponse : t.response = some (.offset o)) :
    ∃ k pin, i = Instr.offset k pin ∧ pin < 58 ∧ o = offsetOf k pin := by
  rcases Nat.lt_or_ge i.pin 58 with hpin | hpin
  · obtain ⟨k, pin, rfl⟩ | ⟨f, pin, rfl⟩ := i.offset_or_pack
    · rw [Instr.offset_pin] at hpin
      cases (exec_offset_eq_offsetOf hpin k s).symm.trans hexec
      cases hresponse
      exact ⟨k, pin, rfl, hpin, rfl⟩
    · cases (exec_pack_of_lt hpin f s).symm.trans hexec
      cases hresponse
  · cases (exec_of_pin_ge hpin s).symm.trans hexec
    cases hresponse

/-- Every row of the map is a word of its kind (R36, R60) and serves the pins of that word: as many as its
class has in a word, and none after pin 57. -/
theorem addressMap_row : ∀ row ∈ addressMap, row.offset = base row.kind + 4 * row.word ∧
    row.firstPin = row.word * pinsPerWord (classOf row.kind) ∧
    row.lastPin = min (row.firstPin + pinsPerWord (classOf row.kind) - 1) 57 := by
  decide

/-- A row serves exactly the valid pins whose word it is. -/
theorem addressMap_row_serves {row : MapRow} (hrow : row ∈ addressMap) {pin : Nat} (h : pin < 58) :
    row.firstPin ≤ pin ∧ pin ≤ row.lastPin ↔ wordIndex (classOf row.kind) pin = row.word := by
  obtain ⟨-, hfirst, hlast⟩ := addressMap_row row hrow
  rw [wordIndex_eq_div h, hlast, hfirst]
  cases classOf row.kind <;> simp only [pinsPerWord] <;> omega

/-- Every word of every kind has its row in the map (R36). -/
theorem exists_addressMap_row (k : RegisterKind) {pin : Nat} (h : pin < 58) :
    ∃ row ∈ addressMap, row.kind = k ∧ row.word = wordIndex (classOf k) pin := by
  have hrows : ∀ k ∈ kindsInOrder, ∀ n ≤ 57 / pinsPerWord (classOf k),
      ∃ row ∈ addressMap, row.kind = k ∧ row.word = n := by decide
  refine hrows k (by cases k <;> decide) _ ?_
  rw [wordIndex_eq_div h]
  exact Nat.div_le_div_right (Nat.le_of_lt_succ h)

/-- The rows of the map, at whose offsets and pins the kinds answer (R36). -/
theorem offsetOf_eq_iff (k : RegisterKind) {pin : Nat} (h : pin < 58) (o : Nat) :
    offsetOf k pin = o ↔
      ∃ row ∈ addressMap, row.kind = k ∧ row.offset = o ∧ row.firstPin ≤ pin ∧ pin ≤ row.lastPin := by
  constructor
  · rintro rfl
    obtain ⟨row, hrow, rfl, hword⟩ := exists_addressMap_row k h
    obtain ⟨hoffset, -, -⟩ := addressMap_row row hrow
    exact ⟨row, hrow, rfl, by rw [hoffset, hword, offsetOf], (addressMap_row_serves hrow h).mpr hword.symm⟩
  · rintro ⟨row, hrow, rfl, rfl, hserves⟩
    obtain ⟨hoffset, -, -⟩ := addressMap_row row hrow
    rw [hoffset, offsetOf, (addressMap_row_serves hrow h).mp hserves]

/-- The thirty offsets strictly rise (R36). -/
theorem addressMap_rises : addressMap.Pairwise fun a b => a.offset < b.offset := by
  decide

/-- No two rows of the map have one offset (R36). -/
theorem addressMap_offset_inj {a b : MapRow} (ha : a ∈ addressMap) (hb : b ∈ addressMap)
    (h : a.offset = b.offset) : a = b :=
  List.inj_on_of_nodup_map (List.pairwise_map.mpr (addressMap_rises.imp Nat.ne_of_lt)) ha hb h

/-- Every offset answered is in the map (R36). -/
theorem listed_offsetOf (k : RegisterKind) {pin : Nat} (h : pin < 58) : listed (offsetOf k pin) = true := by
  obtain ⟨row, hrow, -, hoffset, -⟩ := (offsetOf_eq_iff k h _).mp rfl
  exact List.any_eq_true.mpr ⟨row, hrow, beq_iff_eq.mpr hoffset⟩

end Machine

end Sys2Proof

open Sys2Proof Sys2Proof.Machine

/-- Settles O18: the answer of a valid pin by R60, and each class's word index as a quotient below its last
word. -/
theorem offsetIsBasePlusWordIndex : Obligations.OffsetIsBasePlusWordIndex := by
  intro k pin s hpin
  have hindex := wordIndex_eq_div hpin (classOf k)
  refine ⟨exec_offset_of_lt hpin k s, fun hclass => ?_, fun hclass => ?_, fun hclass => ?_⟩ <;>
    rw [hclass] at hindex ⊢
  · exact ⟨hindex, by omega⟩
  · exact ⟨hindex, by omega⟩
  · exact ⟨hindex, by omega⟩

/-- Settles O19: the offset is that of a kind and a valid pin, whose word is in the map. -/
theorem offsetsAreAlignedWordsOfTheBlock : Obligations.OffsetsAreAlignedWordsOfTheBlock := by
  intro i s t o hexec hresponse
  obtain ⟨k, pin, -, hpin, rfl⟩ := offsetOf_of_answered hexec hresponse
  have hle : offsetOf k pin ≤ 0xF0 := offset_le hpin k
  have hlisted := listed_offsetOf k hpin
  exact ⟨offset_mod_four k pin, hle, show offsetOf k pin + 4 ≤ 256 by omega,
    Nat.mod_eq_of_lt (by omega), hlisted, registerAddress_aligned (by decide) hlisted⟩

/-- Settles O20: a kind answers a valid pin with one offset, and the rows tell which. -/
theorem addressMapIsExact : Obligations.AddressMapIsExact := by
  refine ⟨rfl, addressMap_rises, fun k pin o s hpin => ?_⟩
  rw [exec_offset_eq_offsetOf hpin, ← offsetOf_eq_iff k hpin]
  constructor
  · intro h
    cases h
    rfl
  · rintro rfl
    rfl

/-- Settles O21: one offset is one row of the map, hence one kind and one word of it. -/
theorem kindsNeverShareAnOffset : Obligations.KindsNeverShareAnOffset := by
  intro k l p q s t u o hk hl ht hu
  obtain ⟨k', p', hkp, hp, ho⟩ := offsetOf_of_answered hk ht
  obtain ⟨l', q', hlq, hq, ho'⟩ := offsetOf_of_answered hl hu
  obtain ⟨rfl, rfl⟩ := Instr.offset_inj hkp
  obtain ⟨rfl, rfl⟩ := Instr.offset_inj hlq
  obtain ⟨a, ha, hak, hao, hserves⟩ := (offsetOf_eq_iff _ hp _).mp ho.symm
  obtain ⟨b, hb, hbl, hbo, hserves'⟩ := (offsetOf_eq_iff _ hq _).mp ho'.symm
  obtain rfl := addressMap_offset_inj ha hb (hao.trans hbo.symm)
  subst hak hbl
  exact ⟨rfl, ((addressMap_row_serves ha hp).mp hserves).trans
    ((addressMap_row_serves ha hq).mp hserves').symm⟩

/-- Settles O22: the word index rises with the pin, and the offset with the word index. -/
theorem offsetsRiseWithThePin : Obligations.OffsetsRiseWithThePin := by
  intro k p q s hpq hq
  exact ⟨_, _, Nat.add_le_add_left (Nat.mul_le_mul_left 4 (wordIndex_mono hpq hq (classOf k))) (base k),
    exec_offset_of_lt (hpq.trans_lt hq) k s, exec_offset_of_lt hq k s⟩

end

section
/-! SUPPORT. The update of a field bit by bit (R79): the code in the pin's field, the old word elsewhere; the
laws of the update and what tells two pins apart follow from it. -/

namespace Sys2Proof.Machine

/-- Bit `i` of a function-select word belongs to the pin: it is one of the three from the shift on (R75). -/
abbrev InField (pin i : Nat) : Prop := pin % 10 * 3 ≤ i ∧ i ≤ pin % 10 * 3 + 2

/-- Pins with different field indexes have no bit in common. -/
theorem not_inField_of_inField {p q i : Nat} (hpq : p % 10 ≠ q % 10) (h : InField p i) :
    ¬InField q i := by
  omega

section
variable (c : BitVec 3) (pin : Nat) {i : Nat}

theorem packBits_of_not_inField (hi : i < 32) (h : ¬InField pin i) :
    (packBits c pin).getLsbD i = false := by
  rw [packBits_getLsbD c pin hi, Bool.and_eq_false_iff]
  rcases Nat.lt_or_ge i (pin % 10 * 3) with hlow | hhigh
  · exact .inl (by simpa using hlow)
  · exact .inr (BitVec.getLsbD_of_ge _ _ (by omega))

/-- The update bit by bit (R79, laws 1 and 2). -/
theorem updateWord_getLsbD (w : Word32) (hi : i < 32) :
    (updateWord w (packBits c pin) (clearMask pin)).getLsbD i =
      if InField pin i then c.getLsbD (i - pin % 10 * 3) else w.getLsbD i := by
  rw [updateWord, BitVec.getLsbD_or, BitVec.getLsbD_and, clearMask_getLsbD pin hi]
  split
  case isTrue h => simp [packBits_getLsbD c pin hi, h.1, h]
  case isFalse h => simp [packBits_of_not_inField c pin hi h, h]

/-- The field of a pin is read off the three bits from its shift on (R75). -/
theorem extractField_eq {w : Word32} (h : ∀ j < 3, w.getLsbD (pin % 10 * 3 + j) = c.getLsbD j) :
    w.extractLsb' (pin % 10 * 3) 3 = c :=
  BitVec.eq_of_getLsbD_eq fun j hj => by simp [hj, h j hj]

/-- R79, law 1: after the update the field holds the code. -/
theorem extractField_updateWord (w : Word32) :
    (updateWord w (packBits c pin) (clearMask pin)).extractLsb' (pin % 10 * 3) 3 = c :=
  extractField_eq c pin fun j hj => by
    rw [updateWord_getLsbD c pin w (by omega), if_pos (by omega), Nat.add_sub_cancel_left]

/-- R79, law 3. -/
theorem updateWord_idem (w : Word32) :
    updateWord (updateWord w (packBits c pin) (clearMask pin)) (packBits c pin) (clearMask pin) =
      updateWord w (packBits c pin) (clearMask pin) :=
  BitVec.eq_of_getLsbD_eq fun i hi => by
    simp only [updateWord_getLsbD c pin _ hi]
    split <;> rfl

/-- R79, law 4: without the clear the code is laid over the old field. -/
theorem extractField_or_packBits (w : Word32) :
    (w ||| packBits c pin).extractLsb' (pin % 10 * 3) 3 = c ||| w.extractLsb' (pin % 10 * 3) 3 :=
  extractField_eq _ pin fun j hj => by
    rw [BitVec.getLsbD_or, packBits_getLsbD c pin (by omega), BitVec.getLsbD_or, Bool.or_comm]
    simp [hj]

/-- R79, law 5: updates of fields that have no bit in common commute. -/
theorem updateWord_comm (w : Word32) (d : BitVec 3) {q : Nat} (h : pin % 10 ≠ q % 10) :
    updateWord (updateWord w (packBits c pin) (clearMask pin)) (packBits d q) (clearMask q) =
      updateWord (updateWord w (packBits d q) (clearMask q)) (packBits c pin) (clearMask pin) :=
  BitVec.eq_of_getLsbD_eq fun i hi => by
    simp only [updateWord_getLsbD _ _ _ hi]
    by_cases hp : InField pin i
    · simp only [if_neg (not_inField_of_inField h hp), if_pos hp]
    · simp only [if_neg hp]

end

/-- R62 without the base of its kind, which is 0. -/
theorem exec_offsetFsel_of_lt {pin : Nat} (h : pin < 58) (s : State) :
    exec (.offsetFsel pin) s = .next (s.answer (.offset (pin / 10 * 4))) := by
  have hexec := (offsetFselAnswersItsWord.2 pin s).1 h
  rwa [Nat.zero_add] at hexec

/-- The words of `PACK` are those of the field index (R81). -/
theorem shift_congr {p q : Nat} (h : p % 10 = q % 10) : shift p = shift q := by
  rw [shift_eq, shift_eq, h]

/-- The mask tells the field index: its zeros begin there (R75, R76). -/
theorem fieldIndex_eq_of_clearMask_eq {p q : Nat} (h : clearMask p = clearMask q) : p % 10 = q % 10 := by
  by_contra hne
  have hi : p % 10 * 3 < 32 := by omega
  have hbit := congrArg (BitVec.getLsbD · (p % 10 * 3)) h
  simp only [clearMask_getLsbD _ hi] at hbit
  simp at hbit
  omega

/-- R78: `bits` is at most the code 7 in field 9. -/
theorem packBits_le (c : BitVec 3) (pin : Nat) : (packBits c pin).toNat ≤ 0x38000000 := by
  rw [packBits_toNat]
  exact Nat.mul_le_mul (show c.toNat ≤ 7 by omega) (two_pow_shift_le pin)

/-- `bits` has no bit where the mask has one (R78). -/
theorem packBits_and_clearMask (c : BitVec 3) (pin : Nat) : packBits c pin &&& clearMask pin = 0#32 :=
  BitVec.eq_of_getLsbD_eq fun i hi => by
    rw [BitVec.getLsbD_and, clearMask_getLsbD pin hi, BitVec.getLsbD_zero]
    by_cases h : InField pin i
    · simp [h]
    · rw [packBits_of_not_inField c pin hi h, Bool.false_and]

/-- All of `bits` lies where the mask is zero (R78). -/
theorem packBits_and_not_clearMask (c : BitVec 3) (pin : Nat) :
    packBits c pin &&& ~~~(clearMask pin) = packBits c pin :=
  BitVec.eq_of_getLsbD_eq fun i hi => by
    rw [BitVec.getLsbD_and, BitVec.getLsbD_not, clearMask_getLsbD pin hi]
    by_cases h : InField pin i
    · simp [h, hi]
    · rw [packBits_of_not_inField c pin hi h, Bool.false_and]

/-- The mask is zero exactly in the pin's field (R78). -/
theorem clearMask_eq_false_iff (pin : Nat) {i : Nat} (hi : i < 32) :
    (clearMask pin).getLsbD i = false ↔ InField pin i := by
  simp [clearMask_getLsbD pin hi]

end Sys2Proof.Machine

open Sys2Proof Sys2Proof.Machine

/-- Settles O23: the mask is computed from the pin alone. -/
theorem clearMaskIgnoresTheFunction : Obligations.ClearMaskIgnoresTheFunction :=
  fun f g _ s hpin => ⟨_, _, _, exec_pack_of_lt hpin f s, exec_pack_of_lt hpin g s⟩

/-- Settles O24: bits 31 and 30 lie in no field, and so are kept by the mask and zero in `bits`. -/
theorem packWordsStayInTheirField : Obligations.PackWordsStayInTheirField := by
  intro f pin s hpin
  have h31 : ¬InField pin 31 := by omega
  have h30 : ¬InField pin 30 := by omega
  refine ⟨_, _, exec_pack_of_lt hpin f s, packBits_le f.code pin, packBits_and_clearMask f.code pin,
    packBits_and_not_clearMask f.code pin, fun i hi => clearMask_eq_false_iff pin hi,
    packBits_of_not_inField _ _ (by decide) h31, packBits_of_not_inField _ _ (by decide) h30, ?_, ?_⟩
  · rwa [← Bool.not_eq_false, clearMask_eq_false_iff pin (by decide)]
  · rwa [← Bool.not_eq_false, clearMask_eq_false_iff pin (by decide)]

/-- Settles O25: the five laws of the update at the words `PACK` answers. -/
theorem fieldUpdateLaws : Obligations.FieldUpdateLaws := by
  intro f pin s hpin
  refine ⟨_, _, exec_pack_of_lt hpin f s, fun w => ⟨extractField_updateWord f.code pin w,
    fun i hi houtside => ?_, updateWord_idem f.code pin w, extractField_or_packBits f.code pin w,
    fun g q hq hne => ⟨_, _, exec_pack_of_lt hq g s, updateWord_comm f.code pin w g.code hne.symm⟩⟩⟩
  rw [updateWord_getLsbD f.code pin w hi, if_neg (by omega)]

/-- Settles O26: both words depend on the field index alone; the offset gives the tens of the pin and the
mask its last digit. -/
theorem wordAndFieldIdentifyThePin : Obligations.WordAndFieldIdentifyThePin := by
  refine ⟨fun f p q s hp hq h => ?_, fun p q o m s hp hq hoffset hmask => ?_⟩
  · rw [exec_pack_of_lt hp, exec_pack_of_lt hq, packBits, packBits, clearMask, clearMask, fieldMask,
      fieldMask, shift_congr h]
  · have hword (r : Nat) (hr : r = p ∨ r = q) (hlt : r < 58) : r / 10 * 4 = o := by
      cases (exec_offsetFsel_of_lt hlt s).symm.trans (hoffset r hr)
      rfl
    have hfield (r : Nat) (hr : r = p ∨ r = q) (hlt : r < 58) : clearMask r = m := by
      obtain ⟨b, hb⟩ := hmask r hr
      cases (exec_pack_of_lt hlt .output s).symm.trans hb
      rfl
    have htens := (hword p (.inl rfl) hp).trans (hword q (.inr rfl) hq).symm
    have hdigit := fieldIndex_eq_of_clearMask_eq
      ((hfield p (.inl rfl) hp).trans (hfield q (.inr rfl) hq).symm)
    omega

end

section
/-! SUPPORT. What an access that completes did, and what the accesses of R80 do through a live mapping to the
word of a valid pin: read it, store it, and update the pin's field in it. -/

namespace Sys2Proof.Machine

section
variable {w t : World} {m o n pin : Nat} {v : Word32} {f : PinFunction}

/-- A write that completes went through a live mapping and stored at most its word. -/
theorem World.memWrite_next (h : w.memWrite m o n v = .next t) :
    w.Live m ∧ t = if isFselWord o then { w with words := storeWord o v w.words } else w := by
  obtain ⟨hlive, -, -, -, hperform⟩ := World.guard_next h
  cases hperform
  exact ⟨hlive, rfl⟩

/-- A read that completes went through a live mapping and counted a draw. -/
theorem World.memRead_next (h : w.memRead m o n = .next (v, t)) :
    w.Live m ∧ t = { w with draws := w.draws + 1 } := by
  obtain ⟨hlive, -, -, -, hperform⟩ := World.guard_next h
  cases hperform
  exact ⟨hlive, rfl⟩

/-- The first half of an update, if it completes, has read a word and done nothing else (R80). -/
theorem World.beginUpdate_next {p : Update × World} (h : w.beginUpdate m f pin = .next p) :
    w.memRead m p.1.offset 4 = .next (p.1.old, p.2) := by
  unfold World.beginUpdate at h
  split at h
  · cases h
  · cases h
  · split at h
    · cases h
      assumption
    · cases h
    · cases h
  · cases h

/-- An update that completes is its two halves (R80). -/
theorem World.setFunction_next (h : w.setFunction m f pin = .next t) :
    ∃ p, w.beginUpdate m f pin = .next p ∧ p.2.finishUpdate m p.1 = .next t := by
  unfold World.setFunction at h
  split at h
  · exact ⟨_, ‹_›, h⟩
  · cases h
  · cases h

/-- A write keeps the stored words in canonical form. -/
theorem World.wf_of_memWrite (hw : w.wf) (h : w.memWrite m o n v = .next t) : t.wf := by
  obtain ⟨-, rfl⟩ := World.memWrite_next h
  obtain ⟨hrises, hfsel⟩ := hw
  split
  case isTrue ho =>
    refine ⟨storeWord_pairwise hrises, fun c hc => ?_⟩
    rcases mem_storeWord hc with rfl | hc
    · exact ho
    · exact hfsel c hc
  case isFalse => exact ⟨hrises, hfsel⟩

/-- A read stores nothing, so it keeps the canonical form. -/
theorem World.wf_of_memRead (hw : w.wf) (h : w.memRead m o n = .next (v, t)) : t.wf := by
  obtain ⟨-, rfl⟩ := World.memRead_next h
  exact hw

/-- The word of a valid pin is a listed function-select word (R36). -/
theorem fselWord_of_lt (h : pin < 58) :
    isFselWord (pin / 10 * 4) = true ∧ listed (pin / 10 * 4) = true := by
  have hwords : ∀ n < 6, isFselWord (n * 4) = true ∧ listed (n * 4) = true := by decide
  exact hwords _ (by omega)

section
variable (hpin : pin < 58) (hm : w.Live m) (hbase : w.periphBase % 4 = 0)
include hpin hm hbase

/-- Through a live mapping of an aligned block the word of a valid pin is accessed (R34, R40). -/
theorem World.guard_fselWord {α : Type} (perform : Host.Outcome α AccessFault AccessRefusal) :
    w.guard m (pin / 10 * 4) 4 perform = perform := by
  obtain ⟨-, hlisted⟩ := fselWord_of_lt hpin
  exact World.guard_of_live hm (registerAddress_aligned hbase hlisted) hlisted perform

theorem World.memRead_fselWord : w.memRead m (pin / 10 * 4) 4 =
    .next (w.wordAt (pin / 10 * 4), { w with draws := w.draws + 1 }) :=
  World.guard_fselWord hpin hm hbase _

theorem World.memWrite_fselWord (v : Word32) : w.memWrite m (pin / 10 * 4) 4 v =
    .next { w with words := storeWord (pin / 10 * 4) v w.words } := by
  rw [World.memWrite, World.guard_fselWord hpin hm hbase, if_pos (fselWord_of_lt hpin).1]

/-- The first half of an update at a valid pin holds the pin's word and the encoder's answers (R80). -/
theorem World.beginUpdate_of_lt (f : PinFunction) : w.beginUpdate m f pin =
    .next (⟨pin / 10 * 4, packBits f.code pin, clearMask pin, w.wordAt (pin / 10 * 4)⟩,
      { w with draws := w.draws + 1 }) := by
  rw [World.beginUpdate, ask_of_exec (exec_offsetFsel_of_lt hpin _),
    ask_of_exec (exec_pack_of_lt hpin f _)]
  simp only [World.memRead_fselWord hpin hm hbase]

/-- An update at a valid pin stores the pin's word with the pin's field replaced (R79, R80). -/
theorem World.setFunction_of_lt (f : PinFunction) : w.setFunction m f pin =
    .next { w with
      words := storeWord (pin / 10 * 4)
        (updateWord (w.wordAt (pin / 10 * 4)) (packBits f.code pin) (clearMask pin)) w.words
      draws := w.draws + 1 } := by
  rw [World.setFunction, World.beginUpdate_of_lt hpin hm hbase]
  exact World.memWrite_fselWord (w := { w with draws := w.draws + 1 }) hpin hm hbase _

end

/-- The field of a pin reads back from a word that an access stored (R80, log entry 15). -/
theorem World.wordAt_extractField (hpin : pin < 58) (hv : lookupWord (pin / 10 * 4) w.words = some v) :
    (w.wordAt (pin / 10 * 4)).extractLsb' (pin % 10 * 3) 3 = v.extractLsb' (pin % 10 * 3) 3 :=
  extractField_eq _ pin fun j hj => by
    rw [World.wordAt_field hpin hj (fselWord_of_lt hpin).1 hv]
    simp [hj]

end

/-- An update leaves the field of a pin with another field index as it was (R79, law 2). -/
theorem extractField_updateWord_other (c : BitVec 3) {p q : Nat} (h : p % 10 ≠ q % 10) (w : Word32) :
    (updateWord w (packBits c p) (clearMask p)).extractLsb' (q % 10 * 3) 3 =
      w.extractLsb' (q % 10 * 3) 3 :=
  extractField_eq _ q fun j hj => by
    have hother : ¬InField p (q % 10 * 3 + j) := not_inField_of_inField h.symm (by omega)
    rw [updateWord_getLsbD c p w (by omega), if_neg hother]
    simp [hj]

/-- From Unopened a construction always has an outcome: Mapped, or Unopened with an error (R105). -/
theorem Manager.construct_unopened (r : ConstructReplies) :
    ∃ y e, Manager.unopened.construct r = some (y, e) ∧
      ((∃ b, y = .mapped b Config.blockSize ∧ e = none) ∨ (y = .unopened ∧ e.isSome = true)) := by
  obtain ⟨base, openError, mapError, message⟩ := r
  cases base with
  | failed c => exact ⟨_, _, rfl, .inr ⟨rfl, rfl⟩⟩
  | resolved b =>
    cases openError with
    | some c => exact ⟨_, _, rfl, .inr ⟨rfl, rfl⟩⟩
    | none =>
      cases mapError with
      | some c => exact ⟨_, _, rfl, .inr ⟨rfl, rfl⟩⟩
      | none => exact ⟨_, _, rfl, .inl ⟨b, rfl, rfl⟩⟩

/-- A construction starts from Unopened (R104). -/
theorem Manager.unopened_of_construct {x : Manager} {r : ConstructReplies} {p : Manager × Option EnvError}
    (h : x.construct r = some p) : x = .unopened := by
  cases x with
  | unopened => rfl
  | mapped => cases h
  | released => cases h

/-- A teardown leads from Mapped to Released (R104). -/
theorem Manager.teardown_cases {x y : Manager} {u : Option Int} (h : x.teardown u = some y) :
    (∃ b n, x = .mapped b n) ∧ y = .released := by
  cases x with
  | unopened => cases h
  | mapped b n =>
    cases h
    exact ⟨⟨b, n, rfl⟩, rfl⟩
  | released => cases h

end Sys2Proof.Machine

open Sys2Proof Sys2Proof.Machine

/-- Settles O43: the update stores the pin's word with the pin's field replaced, and nothing else. -/
theorem setFunctionChangesOnlyItsField : Obligations.SetFunctionChangesOnlyItsField := by
  intro w m f pin hpin hm hbase
  refine ⟨_, _, World.setFunction_of_lt hpin hm hbase f, rfl, rfl, rfl, lookupWord_storeWord_same ..,
    extractField_updateWord f.code pin _, fun i hi houtside => ?_,
    fun a ha => lookupWord_storeWord_other ha _ _⟩
  rw [updateWord_getLsbD f.code pin _ hi, if_neg (by omega)]

/-- Settles O46: reads and writes stand behind the guard, which refuses such an access. -/
theorem misalignedAccessIsRefused : Obligations.MisalignedAccessIsRefused :=
  fun _ _ _ _ _ hm h => ⟨World.guard_of_misaligned hm h _, World.guard_of_misaligned hm h _⟩

/-- Settles O47: the transitions of the manager state by state; an access that completes found a live
mapping. -/
theorem managerLifeCycle : Obligations.ManagerLifeCycle := by
  refine ⟨fun x y r e h => ?_, fun r => ?_, fun _ _ _ => rfl, fun _ _ _ h => Manager.teardown_cases h,
    fun _ _ => ⟨rfl, rfl⟩, fun w t m o n v h => ?_⟩
  · obtain rfl := Manager.unopened_of_construct h
    obtain ⟨y', e', hconstruct, hcases⟩ := Manager.construct_unopened r
    cases hconstruct.symm.trans h
    exact ⟨rfl, hcases⟩
  · obtain ⟨y, e, hconstruct, -⟩ := Manager.construct_unopened r
    exact Option.isSome_of_eq_some hconstruct
  · rcases h with hwrite | hread
    · exact ⟨_, _, (World.memWrite_next hwrite).1⟩
    · exact ⟨_, _, (World.memRead_next hread).1⟩

/-- Settles O48: each combination of replies is one case of the construction. -/
theorem constructionStopsAtItsFirstFailure : Obligations.ConstructionStopsAtItsFirstFailure := by
  refine fun b e d c x y t describe => ⟨⟨_, rfl, rfl, rfl, rfl, ?_, ?_⟩, ⟨_, rfl, rfl, rfl, rfl, rfl⟩,
    ⟨_, rfl, rfl, rfl, rfl, rfl⟩, rfl⟩
  · rintro rfl
    rfl
  · rintro rfl
    rfl

/-- Settles O49: byte `i` is the eight bits from `8i` on. -/
theorem bytesOfAWordAreLittleEndian : Obligations.BytesOfAWordAreLittleEndian := by
  intro v i j _ hj
  simp [wordByte, hj]

/-- Settles O50: the late write stores an update of the word as it was read, in which the neighbour's field
is the old one. -/
theorem lateWriteLosesTheOtherUpdate : Obligations.LateWriteLosesTheOtherUpdate := by
  intro w m l f g p q v hp hq htens hfield hm hl hbase hv
  refine ⟨_, _, _, _, _, World.beginUpdate_of_lt hp hm hbase f,
    World.setFunction_of_lt (w := { w with draws := w.draws + 1 }) hq hl hbase g,
    World.memWrite_fselWord hp (by exact hm) (by exact hbase) _, lookupWord_storeWord_same ..,
    extractField_updateWord f.code p _, ?_⟩
  rw [extractField_updateWord_other f.code hfield, htens]
  exact World.wordAt_extractField hq (htens ▸ hv)

/-- Settles O51: the read finds the stored word, whose pin fields read back. -/
theorem twoMappingsSeeTheSameRegisters : Obligations.TwoMappingsSeeTheSameRegisters := by
  intro w m l pin v hpin hm hl hbase
  exact ⟨_, _, _, World.memWrite_fselWord hpin hm hbase v, World.memRead_fselWord hpin hl hbase,
    World.wordAt_extractField hpin (lookupWord_storeWord_same ..)⟩

/-- Settles O52: an update is a read and a write, and both keep the form. -/
theorem accessesKeepTheWordsCanonical : Obligations.AccessesKeepTheWordsCanonical := by
  refine fun w t m hw => ⟨fun _ _ _ h => World.wf_of_memWrite hw h, fun _ _ _ h => World.wf_of_memRead hw h,
    fun f pin h => ?_⟩
  obtain ⟨p, hbegin, hfinish⟩ := World.setFunction_next h
  exact World.wf_of_memWrite (World.wf_of_memRead hw (World.beginUpdate_next hbegin)) hfinish

end
